-- ==== Sys2Proof/Word.lean ====
section
/-!
DEFINITION. The word types of nail-MLA: a limb and every register is 64 bits wide for every N (R3).
-/

namespace Sys2Proof

/-- A limb or a register: 64 bits (R3, R19). -/
abbrev Word := BitVec 64

/-- One byte of the window's byte image (R30). -/
abbrev Byte := BitVec 8

end Sys2Proof
end

