-- ==== Sys2Proof/Config.lean ====
section
/-!
DEFINITION. The configuration of one block (R1, R19, R26): the limb count N and the window's base address BASE.
LAT, the third open parameter, is no number here: the model holds no time (R58), and every place of a
completion in the total order is admitted instead (Machine/State.lean, `Event`; log 2).
-/

namespace Sys2Proof

/-- The build-time parameters. The bounds are part of the type, so a block with N = 0, with N > 512 or with an
unaligned BASE cannot be built (R1, R19; 90_conflicts.md C5). DESIGN CHOICE (log 1): the state carries its
configuration, so a claim about every state is a claim about every N and BASE. -/
structure Config where
  /-- N, the number of limbs of each of A, B and R (R1). -/
  n : Nat
  /-- BASE, the byte address of the register window (R19). -/
  base : Nat
  n_pos : 1 ≤ n
  n_le : n ≤ 512
  base_aligned : base % 0x4000 = 0
deriving DecidableEq, Repr

namespace Config

/-- The refusal at configuration time (R1): no configuration for N = 0, N > 512 or an unaligned BASE. -/
def make? (n base : Nat) : Option Config :=
  if h : 1 ≤ n ∧ n ≤ 512 ∧ base % 0x4000 = 0 then some ⟨n, base, h.1, h.2.1, h.2.2⟩ else none

/-- The capacity of the block in bits, 64·N (R1). -/
def capacity (c : Config) : Nat := 64 * c.n

/-- The named instantiations (R2), here with their window at address 0. -/
def u64 : Config := ⟨1, 0, by decide, by decide, by decide⟩
def u128 : Config := ⟨2, 0, by decide, by decide, by decide⟩
def u256 : Config := ⟨4, 0, by decide, by decide, by decide⟩
def u512 : Config := ⟨8, 0, by decide, by decide, by decide⟩
def u1024 : Config := ⟨16, 0, by decide, by decide, by decide⟩

end Config

end Sys2Proof
end

