-- ==== Sys2Proof/Syntax.lean ====
section
/-!
DEFINITION. The commands of nail-MLA (R47, R51), one constructor per row of spec/opcode_table.json.
-/

namespace Sys2Proof

/-- One command. M and k are written as the assembler writes them (R59): M itself, not MM1 = M − 1. -/
inductive Instr where
  /-- ZERO (R62). -/
  | zero
  /-- FROMSC (R63). -/
  | fromsc
  /-- ADD (R65). -/
  | add
  /-- ADDM M (R66). -/
  | addm (m : Nat)
  /-- MUL (R68). -/
  | mul
  /-- MULM M (R69). -/
  | mulm (m : Nat)
  /-- ADDMOD k (R72). -/
  | addmod (k : Nat)
  /-- MULMOD k (R73). -/
  | mulmod (k : Nat)
deriving DecidableEq, Repr

end Sys2Proof
end

