-- ==== Sys2Proof/WellFormed.lean ====
section
/-!
DEFINITION. Which commands have a word (R49, R50, R59): the fields can hold M = 1 … 1024 and k = 0 … 65535.
M > N and k > 64·N are well-formed: they are encodable, and fault at Issue (R75, R76).
-/

namespace Sys2Proof

/-- The assembler's own check: it "refuses M or k outside the shown range, since the field cannot hold it" (R59). -/
def Instr.wellFormed : Instr → Bool
  | .zero => true
  | .fromsc => true
  | .add => true
  | .addm m => decide (1 ≤ m ∧ m ≤ 1024)
  | .mul => true
  | .mulm m => decide (1 ≤ m ∧ m ≤ 1024)
  | .addmod k => decide (k ≤ 65535)
  | .mulmod k => decide (k ≤ 65535)

/-- `Instr.wellFormed` as a proposition. -/
abbrev Instr.WellFormed (i : Instr) : Prop := i.wellFormed = true

end Sys2Proof
end

