-- ==== Sys2Proof/Decode.lean ====
section
/-!
DEFINITION. The CMD word: its fields (R48), the opcode map with match and mask (R51), the decoder (R54), and after
it the encoder (the word formulas of R59). The decoder is total on every 64-bit word and on every list of bytes,
and says by name why it rejects a word.
-/

namespace Sys2Proof

/-- The eight opcodes of R51. -/
inductive Op where
  | zero
  | fromsc
  | add
  | addm
  | mul
  | mulm
  | addmod
  | mulmod
deriving DecidableEq, Repr

/-- Why a word is Illegal (R53): a set bit of RSV0, RSV1 or RSV2; a reserved OPC; a non-zero unused field.
The block itself records one code for the three, ILLEGAL_COMMAND (R77). -/
inductive Illegal where
  | reservedBits
  | reservedOpcode
  | unusedField
deriving DecidableEq, Repr

/-! ### The fields of R48 -/

def opcField (w : Word) : BitVec 4 := w.extractLsb' 0 4
def rsv0Field (w : Word) : BitVec 12 := w.extractLsb' 4 12
def mm1Field (w : Word) : BitVec 10 := w.extractLsb' 16 10
def rsv1Field (w : Word) : BitVec 6 := w.extractLsb' 26 6
def bitsizeField (w : Word) : BitVec 16 := w.extractLsb' 32 16
def rsv2Field (w : Word) : BitVec 16 := w.extractLsb' 48 16

/-- The OPC value of each command (R51). -/
def Op.code : Op → BitVec 4
  | .zero => 0x1#4
  | .fromsc => 0x2#4
  | .add => 0x3#4
  | .addm => 0x4#4
  | .mul => 0x5#4
  | .mulm => 0x6#4
  | .addmod => 0x7#4
  | .mulmod => 0x8#4

/-- The command of an OPC value, none for the reserved values 0x0 and 0x9 … 0xF (R51). -/
def Op.ofCode? (c : BitVec 4) : Option Op :=
  if c = 0x1#4 then some .zero
  else if c = 0x2#4 then some .fromsc
  else if c = 0x3#4 then some .add
  else if c = 0x4#4 then some .addm
  else if c = 0x5#4 then some .mul
  else if c = 0x6#4 then some .mulm
  else if c = 0x7#4 then some .addmod
  else if c = 0x8#4 then some .mulmod
  else none

/-- ADDM and MULM use MM1 (R48). -/
def Op.usesMM1 : Op → Bool
  | .addm => true
  | .mulm => true
  | .zero | .fromsc | .add | .mul | .addmod | .mulmod => false

/-- ADDMOD and MULMOD use BITSIZE (R48). -/
def Op.usesBitsize : Op → Bool
  | .addmod => true
  | .mulmod => true
  | .zero | .fromsc | .add | .addm | .mul | .mulm => false

/-- The command of an opcode with its M and k; a command takes only what it uses (R54). -/
def Op.instr (op : Op) (m k : Nat) : Instr :=
  match op with
  | .zero => .zero
  | .fromsc => .fromsc
  | .add => .add
  | .addm => .addm m
  | .mul => .mul
  | .mulm => .mulm m
  | .addmod => .addmod k
  | .mulmod => .mulmod k

/-- The opcode of a command (R51). -/
def Instr.op : Instr → Op
  | .zero => .zero
  | .fromsc => .fromsc
  | .add => .add
  | .addm _ => .addm
  | .mul => .mul
  | .mulm _ => .mulm
  | .addmod _ => .addmod
  | .mulmod _ => .mulmod

/-- The M of a decoded command in a block of n limbs: "same-size commands use M = N" (R54). -/
def Instr.limbCount (n : Nat) : Instr → Nat
  | .addm m => m
  | .mulm m => m
  | .zero | .fromsc | .add | .mul | .addmod _ | .mulmod _ => n

/-- The k of a decoded command in a block of n limbs: 64·N where the command does not use it (R54). -/
def Instr.bitWidth (n : Nat) : Instr → Nat
  | .addmod k => k
  | .mulmod k => k
  | .zero | .fromsc | .add | .addm _ | .mul | .mulm _ => 64 * n

/-- One row of the opcode map (R51). -/
structure OpcodeRow where
  op : Op
  matchBits : Word
  mask : Word
deriving DecidableEq, Repr

/-- The opcode map of R51, row by row. -/
def opcodeTable : List OpcodeRow :=
  [ ⟨.zero,   0x0000000000000001#64, 0xFFFFFFFFFFFFFFFF#64⟩,
    ⟨.fromsc, 0x0000000000000002#64, 0xFFFFFFFFFFFFFFFF#64⟩,
    ⟨.add,    0x0000000000000003#64, 0xFFFFFFFFFFFFFFFF#64⟩,
    ⟨.addm,   0x0000000000000004#64, 0xFFFFFFFFFC00FFFF#64⟩,
    ⟨.mul,    0x0000000000000005#64, 0xFFFFFFFFFFFFFFFF#64⟩,
    ⟨.mulm,   0x0000000000000006#64, 0xFFFFFFFFFC00FFFF#64⟩,
    ⟨.addmod, 0x0000000000000007#64, 0xFFFF0000FFFFFFFF#64⟩,
    ⟨.mulmod, 0x0000000000000008#64, 0xFFFF0000FFFFFFFF#64⟩ ]

/-- A word matches a row when its masked bits are the row's (R51). -/
abbrev OpcodeRow.Matches (row : OpcodeRow) (w : Word) : Prop := w &&& row.mask = row.matchBits

/-- `decode` of R54: M = MM1 + 1 (R49) and k = BITSIZE (R50) for the commands that use them. -/
def decode (w : Word) : Except Illegal Instr :=
  if rsv2Field w ≠ 0 ∨ rsv1Field w ≠ 0 ∨ rsv0Field w ≠ 0 then .error .reservedBits
  else
    match Op.ofCode? (opcField w) with
    | none => .error .reservedOpcode
    | some op =>
      if op.usesMM1 = false ∧ mm1Field w ≠ 0 then .error .unusedField
      else if op.usesBitsize = false ∧ bitsizeField w ≠ 0 then .error .unusedField
      else .ok (op.instr ((mm1Field w).toNat + 1) (bitsizeField w).toNat)

/-! ### The encoder: the word formulas of R59 -/

/-- MM1 = M − 1 in bits 25:16 (R49). -/
def mm1Bits (m : Nat) : Word := BitVec.ofNat 64 (m - 1) <<< 16

/-- BITSIZE = k in bits 47:32 (R50). -/
def bitsizeBits (k : Nat) : Word := BitVec.ofNat 64 k <<< 32

/-- The word written to CMD for a command (R59). -/
def encode : Instr → Word
  | .zero => 0x1#64
  | .fromsc => 0x2#64
  | .add => 0x3#64
  | .addm m => 0x4#64 ||| mm1Bits m
  | .mul => 0x5#64
  | .mulm m => 0x6#64 ||| mm1Bits m
  | .addmod k => 0x7#64 ||| bitsizeBits k
  | .mulmod k => 0x8#64 ||| bitsizeBits k

/-! ### The word as bytes (R30: little-endian) -/

/-- Byte j of a 64-bit register is bits 8·j+7 : 8·j of its value (R30). -/
def wordByte (w : Word) (j : Nat) : Byte := w.extractLsb' (8 * j) 8

/-- The eight bytes of a word, lowest address first (R30). -/
def bytesOfWord (w : Word) : List Byte :=
  [wordByte w 0, wordByte w 1, wordByte w 2, wordByte w 3,
   wordByte w 4, wordByte w 5, wordByte w 6, wordByte w 7]

/-- The value of a list of bytes, lowest address first (R30). -/
def natOfBytes : List Byte → Nat
  | [] => 0
  | b :: bs => b.toNat + 256 * natOfBytes bs

/-- The decoder on bytes: "A decoder always reads one 64-bit word" (R46), so eight bytes and no other number. -/
def decodeBytes (bs : List Byte) : Option Instr :=
  if bs.length = 8 then (decode (BitVec.ofNat 64 (natOfBytes bs))).toOption else none

/-- The host's question: the instruction whose bits, numbered as the opcode table numbers them, are w.
The one word is laid out in its eight little-endian bytes and given to the decoder. -/
def decodeTableWord (nbits w : Nat) : Option Instr :=
  if w % 2 ^ nbits < 2 ^ 64 then decodeBytes (bytesOfWord (BitVec.ofNat 64 (w % 2 ^ nbits))) else none

end Sys2Proof
end

