-- ==== Sys2Proof/Machine/State.lean ====
section
/-!
DEFINITION. The state of the machine as plain data: the block's record of R26 (`Block`), its constant configuration,
the host agent of R59, and the turns still to come of the total order of R36 and R37. The reset values are R93.
-/

namespace Sys2Proof.Machine

/-! ### The block (R26) -/

/-- The fault causes of R74. -/
inductive FaultCode where
  /-- M > N (R75). -/
  | sizeOrder
  /-- k > 64·N (R76). -/
  | bitsizeRange
  /-- a word that decodes to Illegal (R77). -/
  | illegalCommand
  /-- a write to CMD, SCALAR, A[i] or B[i] while BUSY = 1 (R79). -/
  | busyViolation
deriving DecidableEq, Repr

/-- INFLIGHT (R21): the accepted command's opcode, limb count M and bit width k. -/
structure Inflight where
  op : Op
  m : Nat
  k : Nat
deriving DecidableEq, Repr

/-- The block's record (R26). A, B and R are lists of N limbs, limb 0 first. -/
structure Block where
  /-- operand register A, the receiver (R10). -/
  a : List Word
  /-- operand register B, the other (R11). -/
  b : List Word
  /-- result register R (R12). -/
  r : List Word
  /-- SCALAR (R13). -/
  scalar : Word
  /-- STATUS bit 0 (R14). -/
  busy : Bool
  /-- STATUS bit 1 (R14). -/
  done : Bool
  /-- STATUS bit 2 (R14). -/
  fault : Bool
  /-- STATUS bits 7:4 (R14, R74). -/
  fcode : BitVec 4
  /-- FADDR (R16). -/
  faddr : Word
  /-- FDATA (R16). -/
  fdata : Word
  /-- INFLIGHT (R21): `some` exactly while BUSY = 1. -/
  inflight : Option Inflight
deriving DecidableEq, Repr

/-- The registers of the map (R19); a limb carries its index. -/
inductive Reg where
  | param
  | ctrl
  | status
  | cmd
  | scalar
  | faddr
  | fdata
  | a (i : Nat)
  | b (i : Nat)
  | r (i : Nat)
deriving DecidableEq, Repr

/-! ### The host agent (R59) -/

/-- What a `wr` statement writes: a 64-bit literal (R59), or a host variable as program P5 of 95_test_vectors.md
writes one. DEDUCED (log 10). -/
inductive Source where
  | imm (v : Word)
  | var (t : Nat)
deriving DecidableEq, Repr

/-- The host statements of R59. Labels and host variables are numbered. `sum t ts` is the host's own computation
`t = Σ t_i · 2^(64·i)` at the end of `rdr` (R60). -/
inductive Stmt where
  | wr (x : Reg) (v : Source)
  | rd (x : Reg) (t : Nat)
  | label (l : Nat)
  | bnz (t : Nat) (imm : Word) (l : Nat)
  | bz (t : Nat) (imm : Word) (l : Nat)
  | halt
  | sum (t : Nat) (ts : List Nat)
deriving DecidableEq, Repr

/-- The host agent: its program, the position of its next statement (R25: "The position of a program is the
host's"), and its variables as (number, value) pairs, numbers rising, no value 0 listed (an unlisted one is 0, log 9). -/
structure HostAgent where
  program : List Stmt
  pos : Nat
  vars : List (Nat × Nat)
deriving DecidableEq, Repr

/-! ### The port and the total order (R28, R36, R37) -/

/-- One access on the port: n bytes at byte address addr (R28). -/
inductive Access where
  | read (addr n : Nat)
  | write (addr n : Nat) (v : Word)
deriving DecidableEq, Repr

/-- One turn of the total order of R36 and R37. -/
inductive Event where
  /-- the host program's next statement (R59). -/
  | host
  /-- an access of any bus master (R89). -/
  | access (x : Access)
  /-- the datapath's turn (R58). -/
  | complete
  /-- the reset source's turn (R92). -/
  | reset
deriving DecidableEq, Repr

/-- The whole state. `cfg` is constant (R26, log 1); `order` (log 2) and `lastRead` (log 11) are the model's own. -/
structure State where
  /-- N and BASE (R1, R19). -/
  cfg : Config
  /-- the block's record (R26). -/
  block : Block
  /-- the host agent (R59). -/
  host : HostAgent
  /-- the turns still to come of the total order (R36, R37); when used up, see `Machine.idleTurn`. -/
  order : List Event
  /-- the data the port returned to the last admitted read (R32). -/
  lastRead : Option Word
deriving DecidableEq, Repr

/-! ### Stops -/

/-- The stops of the machine itself. -/
inductive Fault where
  /-- A completion with BUSY = 1 and INFLIGHT = none. Raised by `Machine.completeTurn`, only in states outside the
  record's invariant (R26: INFLIGHT.isSome = BUSY), which no run from reset reaches. Safe (log 8). -/
  | noCommandInFlight
deriving DecidableEq, Repr

/-- What the model gives no meaning. -/
inductive Refusal where
  /-- An instruction with no meaning yet. Raised by `exec` only; no arm of it does. Safe. -/
  | notModelled (mnemonic : String)
  /-- A narrow, wide or misaligned access to the window: "A model treats such an access as refused" (R29). Raised by
  `Machine.portAccess`. Safe (log 6). -/
  | busError
  /-- A host statement that no assembler accepts: a label the program does not define, or a register that is not in
  the map of R19 (A[i], B[i], R[i] with i ≥ 512). Raised by `Machine.hostTurn`. Safe (log 9). -/
  | notAssembled
deriving DecidableEq, Repr

/-! ### Reset (R93) -/

/-- The block's record after `Reset()` (R93). -/
def Block.reset (c : Config) : Block where
  a := List.replicate c.n 0
  b := List.replicate c.n 0
  r := List.replicate c.n 0
  scalar := 0
  busy := false
  done := false
  fault := false
  fcode := 0
  faddr := 0
  fdata := 0
  inflight := none

/-- The host agent before anything is loaded into it (log 5, log 9). -/
def HostAgent.empty : HostAgent := ⟨[], 0, []⟩

/-- The state after reset of a block with configuration c (R92: "A model starts every run from the state `Reset()` gives"). -/
def State.resetOf (c : Config) : State := ⟨c, Block.reset c, HostAgent.empty, [], none⟩

/-- The state after reset at N = 4 and BASE = 0. DESIGN CHOICE (log 1): the spec leaves both open; every claim is
stated for every configuration. -/
def State.reset : State := State.resetOf Config.u256

end Sys2Proof.Machine
end

