-- ==== Sys2Proof/Machine/Flags.lean ====
section
/-!
DEFINITION. The status word and the fault codes (R14, R74). The block has no arithmetic flag of any kind: "STATUS
reports only the command lifecycle and faults, never arithmetic outcomes" (R23), so no flag is computed here.
-/

namespace Sys2Proof.Machine

/-- FCODE of a fault cause (R74). -/
def FaultCode.code : FaultCode → BitVec 4
  | .sizeOrder => 1#4
  | .bitsizeRange => 2#4
  | .illegalCommand => 3#4
  | .busyViolation => 4#4

/-- STATUS as the host reads it (R14): BUSY in bit 0, DONE in bit 1, FAULT in bit 2, FCODE in bits 7:4, and 0 in
bit 3 and bits 63:8. -/
def statusWord (b : Block) : Word :=
  BitVec.ofNat 64 (b.busy.toNat + 2 * b.done.toNat + 4 * b.fault.toNat + 16 * b.fcode.toNat)

/-- PARAM (R17): N in bits 15:0, 64 in bits 23:16, the command set version 1 in bits 31:24, 0 above. -/
def paramWord (c : Config) : Word := BitVec.ofNat 64 (c.n + 64 * 2 ^ 16 + 1 * 2 ^ 24)

end Sys2Proof.Machine
end

