-- ==== Sys2Proof/Machine/Operands.lean ====
section
/-!
DEFINITION. Limb vectors (R7) and the operand forms of R47: A[0..N], B[0..N], B[0..M] with the absent limbs read as
0, and SCALAR. Every value is unsigned (R5).
-/

namespace Sys2Proof.Machine

/-- `val(X, n)` of R7: limb 0 is the least significant. -/
def val : List Word → Nat
  | [] => 0
  | x :: xs => x.toNat + 2 ^ 64 * val xs

/-- `pack(v, n)` of R7: the n limbs of v mod 2^(64·n). -/
def pack (v : Nat) : Nat → List Word
  | 0 => []
  | n + 1 => BitVec.ofNat 64 v :: pack (v / 2 ^ 64) n

/-- n limbs, each 0. -/
def zeros (n : Nat) : List Word := List.replicate n 0

/-- The first n limbs of a register, 0 where it has no limb. On a register of N limbs and n = N, the register itself. -/
def limbs : Nat → List Word → List Word
  | 0, _ => []
  | n + 1, [] => 0 :: limbs n []
  | n + 1, x :: xs => x :: limbs n xs

/-- Operand A[0..N] (R10). -/
def operandA (s : State) : List Word := limbs s.cfg.n s.block.a

/-- Operand B[0..N], for the same-size commands (R11). -/
def operandB (s : State) : List Word := limbs s.cfg.n s.block.b

/-- Operand B[0..M] as N limbs: limbs M … N−1 are "treated as 0" whatever B holds there (R11, R66, R69). -/
def operandBLow (m : Nat) (s : State) : List Word := limbs s.cfg.n (s.block.b.take m)

/-- Operand SCALAR (R13). -/
def operandScalar (s : State) : Word := s.block.scalar

end Sys2Proof.Machine
end

