-- ==== Sys2Proof/Machine/Ops.lean ====
section
/-!
DEFINITION. The shared operations on the block: raising a fault (R78), the way out of a fault, which is reset (R84, R93,
R94), accepting a command (R56), completing one (R58), and `runCommand`, the two steps of any command.
-/

namespace Sys2Proof.Machine

/-- The offset of CMD (R19). -/
def cmdOffset : Nat := 0x18

/-- `raise Fault(code, off, data)` (R78): the one operation that takes a fault. No limb of R, A, B and no SCALAR
changes. -/
def raiseFault (code : FaultCode) (off : Nat) (data : Word) (s : State) : State :=
  { s with block := { s.block with
      fault := true, fcode := code.code, faddr := BitVec.ofNat 64 off, fdata := data,
      busy := false, done := false, inflight := none } }

/-- `Reset()` (R93): every piece of the block's state to its reset value. The host agent, the port and the order of
turns are not the block's and stay (log 12). -/
def resetBlock (s : State) : State := { s with block := Block.reset s.cfg }

/-- `SoftReset()` (R94): "exactly the effect of `Reset()`". With hardware reset it is the only return from a fault (R84). -/
def softReset (s : State) : State := resetBlock s

/-- What INFLIGHT holds of a command: its opcode, M and k (R21, R54). -/
def Inflight.ofInstr (c : Config) (i : Instr) : Inflight := ⟨i.op, i.limbCount c.n, i.bitWidth c.n⟩

/-- The command INFLIGHT holds (R21). -/
def Inflight.instr (f : Inflight) : Instr := f.op.instr f.m f.k

/-- `Accept(op, M, k)` (R56). It writes no limb of R. -/
def accept (i : Instr) (s : State) : State :=
  { s with block := { s.block with inflight := some (Inflight.ofInstr s.cfg i), done := false, busy := true } }

/-- `Complete()` with the computed limbs Y (R58): all N limbs of R in one step. -/
def complete (y : List Word) (s : State) : State :=
  { s with block := { s.block with r := y, inflight := none, busy := false, done := true } }

/-- The check of R75 and R55: M > N. -/
def sizeCheck (m : Nat) (s : State) : Option FaultCode := if s.cfg.n < m then some .sizeOrder else none

/-- The check of R76 and R55: k > 64·N. -/
def bitsizeCheck (k : Nat) (s : State) : Option FaultCode := if s.cfg.capacity < k then some .bitsizeRange else none

/-- Is i the command in flight, so that the datapath's `Complete()` is enabled for it (R58)? -/
def inFlight (i : Instr) (s : State) : Bool := s.block.busy && decide (s.block.inflight.map Inflight.instr = some i)

/-- The two steps of command i (00_scope.md section 5: "`Issue(w)`, `Complete()` | the two steps of one command").
While i is the command in flight, the step is `Complete()` (R58), with y its computed limbs. Otherwise i arrives as a
write to CMD, and the step is `Issue` (R55) from the first check on: FAULT, BUSY, then the command's own check, then
`Accept`. DESIGN CHOICE (log 3): how one `exec` says both steps. -/
def runCommand (i : Instr) (check : Option FaultCode) (y : List Word) (s : State) :
    Host.Outcome State Fault Refusal :=
  if inFlight i s then .next (complete y s)
  else if s.block.fault then .next s
  else if s.block.busy then .next (raiseFault .busyViolation cmdOffset (encode i) s)
  else
    match check with
    | some code => .next (raiseFault code cmdOffset (encode i) s)
    | none => .next (accept i s)

end Sys2Proof.Machine
end

