-- ==== Sys2Proof/Machine/Addition.lean ====
section
/-!
DEFINITION. The addition commands ADD (R65) and ADDM (R66), by the ripple-carry limb step of R64.
-/

namespace Sys2Proof.Machine

/-- `add_step(x, y, c_in)` of R64: the sum limb and the carry out, with the two overflow detections the rule writes. -/
def addStep (x y : Word) (c : Bool) : Word × Bool :=
  let o1 := decide (2 ^ 64 ≤ x.toNat + y.toNat)
  let t1 := (x.toNat + y.toNat) % 2 ^ 64
  let o2 := decide (2 ^ 64 ≤ t1 + c.toNat)
  (BitVec.ofNat 64 (t1 + c.toNat), o1 || o2)

/-- The ripple of R65 over two operands of the same length; the carry out of the last limb is discarded. -/
def ripple : List Word → List Word → Bool → List Word
  | x :: xs, y :: ys, c => (addStep x y c).1 :: ripple xs ys (addStep x y c).2
  | [], _, _ => []
  | _ :: _, [], _ => []

/-- The sum of two operands of N limbs, the first carry in 0 (R65). -/
def addLimbs (xs ys : List Word) : List Word := ripple xs ys false

/-- ADD (R65). -/
def execAdd (s : State) : Host.Outcome State Fault Refusal :=
  runCommand .add none (addLimbs (operandA s) (operandB s)) s

/-- ADDM M (R66): "the carry ripples through limbs M..N-1 too". M > N faults with SIZE_ORDER (R75). -/
def execAddm (m : Nat) (s : State) : Host.Outcome State Fault Refusal :=
  runCommand (.addm m) (sizeCheck m s) (addLimbs (operandA s) (operandBLow m s)) s

end Sys2Proof.Machine
end

