-- ==== Sys2Proof/Machine/Construction.lean ====
section
/-!
DEFINITION. The construction commands ZERO (R62) and FROMSC (R63).
-/

namespace Sys2Proof.Machine

/-- The limbs of `from_scalar(x)` (R63): x in limb 0, 0 in every other limb; not sign-extended. -/
def fromScalar (n : Nat) (x : Word) : List Word := limbs n [x]

/-- ZERO (R62): every limb of R becomes 0. It reads no register. -/
def execZero (s : State) : Host.Outcome State Fault Refusal :=
  runCommand .zero none (zeros s.cfg.n) s

/-- FROMSC (R63): R[0] becomes SCALAR, every other limb 0. -/
def execFromsc (s : State) : Host.Outcome State Fault Refusal :=
  runCommand .fromsc none (fromScalar s.cfg.n (operandScalar s)) s

end Sys2Proof.Machine
end

