-- ==== Sys2Proof/Machine/Multiplication.lean ====
section
/-!
DEFINITION. The multiplication commands MUL (R68) and MULM (R69): "The architectural result of MUL and MULM is a value"
(R67), and that value is the meaning. Beside it stand two structures that R67 and R68 describe, the schoolbook loop with
its ripple `AddAt` and a carry-save reduction of the partial products; no command depends on them, and the
obligations state that they give the value.
-/

namespace Sys2Proof.Machine

/-- The low n limbs of the full product (R68, R69). -/
def mulLimbs (n : Nat) (xs ys : List Word) : List Word := pack (val xs * val ys % 2 ^ (64 * n)) n

/-- MUL (R68). -/
def execMul (s : State) : Host.Outcome State Fault Refusal :=
  runCommand .mul none (mulLimbs s.cfg.n (operandA s) (operandB s)) s

/-- MULM M (R69): only B[0..M] is read. M > N faults with SIZE_ORDER (R75). -/
def execMulm (m : Nat) (s : State) : Host.Outcome State Fault Refusal :=
  runCommand (.mulm m) (sizeCheck m s) (mulLimbs s.cfg.n (operandA s) (operandBLow m s)) s

/-! ### The schoolbook loop of R68 -/

/-- `AddAt(acc, q, v)` of R68: add v at limb q and ripple the carry as far as it reaches; a carry out of the last limb
is dropped. -/
def addAt : List Word → Nat → Nat → List Word
  | [], _, _ => []
  | x :: xs, q + 1, v => x :: addAt xs q v
  | x :: xs, 0, v => if v = 0 then x :: xs else BitVec.ofNat 64 (x.toNat + v) :: addAt xs 0 ((x.toNat + v) / 2 ^ 64)

/-- One pass of R68's inner loop: the product x·y at position q of an accumulator whose limbs at and above lim are not
computed; the low half at q, the high half at q + 1. -/
def addProduct (lim q : Nat) (x y : Word) (acc : List Word) : List Word :=
  if q < lim then
    let low := addAt acc q (x.toNat * y.toNat % 2 ^ 64)
    if q + 1 < lim then addAt low (q + 1) (x.toNat * y.toNat / 2 ^ 64) else low
  else acc

/-- R68's loop over j for one limb x = A[i], starting at position q = i. -/
def schoolbookRow (lim : Nat) (x : Word) : List Word → Nat → List Word → List Word
  | [], _, acc => acc
  | y :: ys, q, acc => schoolbookRow lim x ys (q + 1) (addProduct lim q x y acc)

/-- R68's loop over i, starting at position q. -/
def schoolbookLoop (lim : Nat) (ys : List Word) : List Word → Nat → List Word → List Word
  | [], _, acc => acc
  | x :: xs, q, acc => schoolbookLoop lim ys xs (q + 1) (schoolbookRow lim x ys q acc)

/-- The reference algorithm of R68 and, for ys of M limbs, of R69: the low n limbs of the product. -/
def schoolbook (n : Nat) (xs ys : List Word) : List Word := schoolbookLoop n ys xs 0 (zeros n)

/-! ### A carry-save tree (R67) -/

/-- The partial products of one limb x with every limb of ys, from position q up, each at its weight. -/
def partialRow (x : Word) : List Word → Nat → List Nat
  | [], _ => []
  | y :: ys, q => x.toNat * y.toNat * 2 ^ (64 * q) :: partialRow x ys (q + 1)

/-- All partial products A[i]·B[j] at their weights 2^(64·(i+j)). -/
def partialProducts (ys : List Word) : List Word → Nat → List Nat
  | [], _ => []
  | x :: xs, q => partialRow x ys q ++ partialProducts ys xs (q + 1)

/-- The sum bits of a 3:2 carry-save adder. -/
def csaSum (x y z : Nat) : Nat := x ^^^ y ^^^ z

/-- The carry bits of a 3:2 carry-save adder, each at the next higher weight. -/
def csaCarry (x y z : Nat) : Nat := 2 * ((x &&& y) ||| (x &&& z) ||| (y &&& z))

/-- One layer of a Wallace tree: every three rows become two. -/
def csaLayer : List Nat → List Nat
  | x :: y :: z :: rest => csaSum x y z :: csaCarry x y z :: csaLayer rest
  | [x, y] => [x, y]
  | [x] => [x]
  | [] => []

/-- A number of layers. -/
def csaTree : Nat → List Nat → List Nat
  | 0, rows => rows
  | d + 1, rows => csaTree d (csaLayer rows)

/-- A carry-save multiplier: a tree of `depth` layers, then one final addition of the rows that are left (R67). -/
def carrySaveProduct (depth n : Nat) (xs ys : List Word) : List Word :=
  pack ((csaTree depth (partialProducts ys xs 0)).sum % 2 ^ (64 * n)) n

end Sys2Proof.Machine
end

