-- ==== Sys2Proof/Machine/Modular.lean ====
section
/-!
DEFINITION. The modular commands ADDMOD (R72) and MULMOD (R73) with the result mask of R70 and R71.
-/

namespace Sys2Proof.Machine

/-- `ceil_div(k, 64)`: the number of limbs that can hold a non-zero bit after masking (R70). -/
def nlimbs (k : Nat) : Nat := (k + 63) / 64

/-- What R70's mask does to the limb at index i. The boundary limb is masked only where k mod 64 ≠ 0 (R71), so k − 1
is evaluated for k > 0 only, and no mask is a shift by 64. -/
def maskLimb (k i : Nat) (y : Word) : Word :=
  if nlimbs k ≤ i then 0
  else if k % 64 ≠ 0 ∧ i = (k - 1) / 64 then y &&& BitVec.ofNat 64 (2 ^ (k % 64) - 1)
  else y

/-- R70's mask on the limbs from index i up. -/
def maskFrom (k : Nat) : Nat → List Word → List Word
  | _, [] => []
  | i, y :: ys => maskLimb k i y :: maskFrom k (i + 1) ys

/-- `mask(Y, k)` of R70. -/
def maskLimbs (k : Nat) (ys : List Word) : List Word := maskFrom k 0 ys

/-- ADDMOD k (R72): the sum of ADD, masked. k > 64·N faults with BITSIZE_RANGE (R76). -/
def execAddmod (k : Nat) (s : State) : Host.Outcome State Fault Refusal :=
  runCommand (.addmod k) (bitsizeCheck k s) (maskLimbs k (addLimbs (operandA s) (operandB s))) s

/-- The product of R73, reduced modulo 2^k, as n limbs. -/
def mulmodLimbs (n k : Nat) (xs ys : List Word) : List Word := pack (val xs * val ys % 2 ^ k) n

/-- MULMOD k (R73). k > 64·N faults with BITSIZE_RANGE (R76). -/
def execMulmod (k : Nat) (s : State) : Host.Outcome State Fault Refusal :=
  runCommand (.mulmod k) (bitsizeCheck k s) (mulmodLimbs s.cfg.n k (operandA s) (operandB s)) s

/-- The method R73 allows: compute product limbs 0 … nlimbs−1 only, apply the boundary mask, zero the rest. No command
depends on it; an obligation states that it gives R73's value. -/
def mulmodLowLimbs (n k : Nat) (xs ys : List Word) : List Word :=
  maskLimbs k (schoolbookLoop (nlimbs k) ys xs 0 (zeros (nlimbs k)) ++ zeros (n - nlimbs k))

end Sys2Proof.Machine
end

