-- ==== Sys2Proof/Machine/Dispatch.lean ====
section
/-!
DEFINITION. One arm per command of the opcode map (R51), each one call of the command's meaning.
-/

namespace Sys2Proof.Machine

def exec (i : Instr) (s : State) : Host.Outcome State Fault Refusal :=
  match i with
  | .zero => Sys2Proof.Machine.execZero s
  | .fromsc => Sys2Proof.Machine.execFromsc s
  | .add => Sys2Proof.Machine.execAdd s
  | .addm m => Sys2Proof.Machine.execAddm m s
  | .mul => Sys2Proof.Machine.execMul s
  | .mulm m => Sys2Proof.Machine.execMulm m s
  | .addmod k => Sys2Proof.Machine.execAddmod k s
  | .mulmod k => Sys2Proof.Machine.execMulmod k s

end Sys2Proof.Machine
end

