-- ==== Sys2Proof/Machine/Window.lean ====
section
/-!
DEFINITION. The register window: the map (R19), what a read returns (R32), and the byte image (R30, R31).
-/

namespace Sys2Proof.Machine

/-- The offset of a register (R19, R31). -/
def Reg.offset : Reg → Nat
  | .param => 0x0
  | .ctrl => 0x8
  | .status => 0x10
  | .cmd => 0x18
  | .scalar => 0x20
  | .faddr => 0x28
  | .fdata => 0x30
  | .a i => 0x1000 + 8 * i
  | .b i => 0x2000 + 8 * i
  | .r i => 0x3000 + 8 * i

/-- Is the register in the map: each limb window holds 512 limbs (R19)? -/
def Reg.inMap : Reg → Bool
  | .a i => decide (i < 512)
  | .b i => decide (i < 512)
  | .r i => decide (i < 512)
  | .param | .ctrl | .status | .cmd | .scalar | .faddr | .fdata => true

/-- The limb index an offset names in the array at `base`, if it is one of the array's N limbs (R19). -/
def limbIndex? (n base off : Nat) : Option Nat :=
  if base ≤ off ∧ off < base + 8 * n ∧ off % 8 = 0 then some ((off - base) / 8) else none

/-- Decoding an offset (R19, R32, R33). None is a reserved offset, limb indexes N … 511 among them. -/
def decodeOffset (c : Config) (off : Nat) : Option Reg :=
  if off = 0x0 then some .param
  else if off = 0x8 then some .ctrl
  else if off = 0x10 then some .status
  else if off = 0x18 then some .cmd
  else if off = 0x20 then some .scalar
  else if off = 0x28 then some .faddr
  else if off = 0x30 then some .fdata
  else
    match limbIndex? c.n 0x1000 off with
    | some i => some (.a i)
    | none =>
      match limbIndex? c.n 0x2000 off with
      | some i => some (.b i)
      | none =>
        match limbIndex? c.n 0x3000 off with
        | some i => some (.r i)
        | none => none

/-- Limb i of a register (R10 to R12). -/
def limbAt (xs : List Word) (i : Nat) : Word := xs.getD i 0

/-- The value of a register as the host reads it (R32): CTRL and CMD read 0. -/
def readReg (c : Config) (b : Block) : Reg → Word
  | .param => paramWord c
  | .ctrl => 0
  | .status => statusWord b
  | .cmd => 0
  | .scalar => b.scalar
  | .faddr => b.faddr
  | .fdata => b.fdata
  | .a i => limbAt b.a i
  | .b i => limbAt b.b i
  | .r i => limbAt b.r i

/-- An admitted read at an offset (R32): "any other offset in the window | 0". -/
def windowRead (c : Config) (b : Block) (off : Nat) : Word :=
  match decodeOffset c off with
  | some x => readReg c b x
  | none => 0

/-- The byte image of the window (R30): byte off + j of the register at off is bits 8·j+7 : 8·j of its value. No access
reads one byte (R29); this is the image the map lays out (R31). -/
def windowByte (c : Config) (b : Block) (addr : Nat) : Byte := wordByte (windowRead c b (addr - addr % 8)) (addr % 8)

end Sys2Proof.Machine
end

