-- ==== Sys2Proof/Machine/Port.lean ====
section
/-!
DEFINITION. The host port: `Issue` of a CMD word (R55), the write decode (R33), and one access (R28, R29).
-/

namespace Sys2Proof.Machine

/-- `Issue(w)` (R55): the checks in the rule's order, then the decoded command, whose own check and `Accept` stand in
its meaning. -/
def issue (w : Word) (s : State) : Host.Outcome State Fault Refusal :=
  if s.block.fault then .next s
  else if s.block.busy then .next (raiseFault .busyViolation cmdOffset w s)
  else
    match decode w with
    | .error _ => .next (raiseFault .illegalCommand cmdOffset w s)
    | .ok i => exec i s

/-- A write to CTRL (R18): bit 0 set is a soft reset, bits 63:1 are ignored. -/
def writeCtrl (v : Word) (s : State) : State := if v.getLsbD 0 then softReset s else s

/-- Writing an operand register (R33): a busy violation while BUSY = 1 (R79), else `put` sets the register. -/
def writeOperand (off : Nat) (v : Word) (put : Block → Block) (s : State) : State :=
  if s.block.busy then raiseFault .busyViolation off v s else { s with block := put s.block }

/-- An admitted write of v at an offset (R33). The last rows of the rule's table (PARAM, STATUS, FADDR, FDATA, R[i],
reserved) have no effect. -/
def windowWrite (off : Nat) (v : Word) (s : State) : Host.Outcome State Fault Refusal :=
  match decodeOffset s.cfg off with
  | some .ctrl => .next (writeCtrl v s)
  | some .cmd => issue v s
  | some .scalar => .next (writeOperand off v (fun b => { b with scalar := v }) s)
  | some (.a i) => .next (writeOperand off v (fun b => { b with a := b.a.set i v }) s)
  | some (.b i) => .next (writeOperand off v (fun b => { b with b := b.b.set i v }) s)
  | some .param => .next s
  | some .status => .next s
  | some .faddr => .next s
  | some .fdata => .next s
  | some (.r _) => .next s
  | none => .next s

/-- The address of an access (R28). -/
def Access.addr : Access → Nat
  | .read a _ => a
  | .write a _ _ => a

/-- The number of bytes of an access (R28). -/
def Access.size : Access → Nat
  | .read _ n => n
  | .write _ n _ => n

/-- Does the access reach the window [BASE, BASE + 0x4000) (R27, R28)? It does if its address or any of its bytes lies
inside. DESIGN CHOICE (log 7): an access that only partly lies in the window is the block's, and is refused. -/
def reachesWindow (c : Config) (x : Access) : Bool :=
  decide (x.addr < c.base + 0x4000 ∧ c.base < x.addr + max x.size 1)

/-- Is the access admitted: its address in the window, 8 bytes, and an offset that is a multiple of 8 (R29)? -/
def admitted (c : Config) (x : Access) : Bool :=
  decide (c.base ≤ x.addr ∧ x.addr < c.base + 0x4000 ∧ x.size = 8 ∧ (x.addr - c.base) % 8 = 0)

/-- One access on the port. Outside the window it is not the block's (R28, log 7); not admitted, it is a bus error,
which the model refuses (R29, log 6). A read changes no state of the block (R32); `lastRead` takes its data (log 11). -/
def portAccess (x : Access) (s : State) : Host.Outcome State Fault Refusal :=
  if reachesWindow s.cfg x then
    if admitted s.cfg x then
      match x with
      | .read addr _ => .next { s with lastRead := some (windowRead s.cfg s.block (addr - s.cfg.base)) }
      | .write addr _ v => windowWrite (addr - s.cfg.base) v s
    else .refused .busError
  else .next s

end Sys2Proof.Machine
end

