-- ==== Sys2Proof/Machine/HostProgram.lean ====
section
/-!
DEFINITION. The host agent: its variables, and the meaning of the host statements (R59). A host program's accesses reach
the port in its program order (R38, R41).
-/

namespace Sys2Proof.Machine

/-! ### Host variables (log 9) -/

/-- The value of a host variable; one that nothing has written is 0 (DESIGN CHOICE, log 9). -/
def varGet : List (Nat × Nat) → Nat → Nat
  | [], _ => 0
  | (u, v) :: rest, t => if u = t then v else varGet rest t

/-- Set a variable, keeping the numbers rising and no 0 listed. -/
def varSet : List (Nat × Nat) → Nat → Nat → List (Nat × Nat)
  | [], t, v => if v = 0 then [] else [(t, v)]
  | (u, x) :: rest, t, v =>
    if t < u then (if v = 0 then (u, x) :: rest else (t, v) :: (u, x) :: rest)
    else if t = u then (if v = 0 then rest else (t, v) :: rest)
    else (u, x) :: varSet rest t v

/-- The canonical form of the variables: every number at least lo, numbers rising, no 0 listed. -/
def varsCanonFrom (lo : Nat) : List (Nat × Nat) → Bool
  | [] => true
  | (u, x) :: rest => decide (lo ≤ u) && decide (x ≠ 0) && varsCanonFrom (u + 1) rest

/-- The canonical form of the host's variables, so that equal variables are equal data. -/
def varsCanon (vs : List (Nat × Nat)) : Bool := varsCanonFrom 0 vs

/-- Set a host variable. -/
def setVar (t v : Nat) (s : State) : State := { s with host := { s.host with vars := varSet s.host.vars t v } }

/-- The host goes on to its next statement. -/
def advance (s : State) : State := { s with host := { s.host with pos := s.host.pos + 1 } }

/-- The position of the first statement `L:` with that label, counting from p. -/
def findLabelFrom : List Stmt → Nat → Nat → Option Nat
  | [], _, _ => none
  | .label k :: rest, l, p => if k = l then some p else findLabelFrom rest l (p + 1)
  | .wr _ _ :: rest, l, p => findLabelFrom rest l (p + 1)
  | .rd _ _ :: rest, l, p => findLabelFrom rest l (p + 1)
  | .bnz _ _ _ :: rest, l, p => findLabelFrom rest l (p + 1)
  | .bz _ _ _ :: rest, l, p => findLabelFrom rest l (p + 1)
  | .halt :: rest, l, p => findLabelFrom rest l (p + 1)
  | .sum _ _ :: rest, l, p => findLabelFrom rest l (p + 1)

/-- The host branches to a label; a label the program does not define is no program (log 9). -/
def jump (l : Nat) (s : State) : Host.Outcome State Fault Refusal :=
  match findLabelFrom s.host.program l 0 with
  | some p => .next { s with host := { s.host with pos := p } }
  | none => .refused .notAssembled

/-- The 64-bit value a `wr` statement writes; of a variable, its low 64 bits (log 10). -/
def sourceValue (v : Source) (s : State) : Word :=
  match v with
  | .imm w => w
  | .var t => BitVec.ofNat 64 (varGet s.host.vars t)

/-- `t = Σ t_i · 2^(64·i)` on the host (R60). -/
def sumVars (vars : List (Nat × Nat)) : List Nat → Nat
  | [] => 0
  | t :: ts => varGet vars t + 2 ^ 64 * sumVars vars ts

/-- `wr X, v`: `MemWrite(BASE + off(X), 8, v)` (R59). -/
def hostWrite (x : Reg) (v : Word) (s : State) : Host.Outcome State Fault Refusal :=
  if x.inMap then portAccess (.write (s.cfg.base + x.offset) 8 v) s else .refused .notAssembled

/-- `rd X -> t`: `t <- MemRead(BASE + off(X), 8)` (R59). -/
def hostRead (x : Reg) (t : Nat) (s : State) : Host.Outcome State Fault Refusal :=
  if x.inMap then
    match portAccess (.read (s.cfg.base + x.offset) 8) s with
    | .next s' => .next (setVar t ((s'.lastRead.getD 0).toNat) s')
    | .fault r => .fault r
    | .refused r => .refused r
  else .refused .notAssembled

/-- One host statement (R59), run at the position it stands at. -/
def hostStmt (st : Stmt) (s : State) : Host.Outcome State Fault Refusal :=
  match st with
  | .wr x v => hostWrite x (sourceValue v s) (advance s)
  | .rd x t => hostRead x t (advance s)
  | .label _ => .next (advance s)
  | .bnz t imm l => if varGet s.host.vars t &&& imm.toNat ≠ 0 then jump l s else .next (advance s)
  | .bz t imm l => if varGet s.host.vars t &&& imm.toNat = 0 then jump l s else .next (advance s)
  | .halt => .next s
  | .sum t ts => .next (setVar t (sumVars s.host.vars ts) (advance s))

/-- The host's turn. At `halt`, and past the last statement, the host program has ended and nothing happens (R59;
log 9 for a program without `halt`). -/
def hostTurn (s : State) : Host.Outcome State Fault Refusal :=
  match s.host.program[s.host.pos]? with
  | some st => hostStmt st s
  | none => .next s

/-- Has the host program ended: at `halt` (R59), or past its last statement (DESIGN CHOICE, log 9)? -/
def hostEnded (s : State) : Bool :=
  match s.host.program[s.host.pos]? with
  | some st => decide (st = .halt)
  | none => true

end Sys2Proof.Machine
end

