-- ==== Sys2Proof/Machine/Assembler.lean ====
section
/-!
DEFINITION. The assembler of host programs: command statements (R59), the expansions of the pseudo-instructions (R60), and
the source program with its fresh labels and variables. The machine runs what it gives (`HostAgent.program`).
-/

namespace Sys2Proof.Machine

/-! ### Command statements (R59) -/

/-- A command statement: a command by its mnemonic, or `cmd 0x<word>` (R59). -/
inductive Command where
  | mnemonic (i : Instr)
  | raw (w : Word)
deriving DecidableEq, Repr

/-- A command statement: "Each command statement is `wr CMD, <word>`". The assembler refuses a command whose M or k the
field cannot hold (R59). -/
def assemble (i : Instr) : Option Stmt := if i.wellFormed then some (.wr .cmd (.imm (encode i))) else none

/-- `cmd 0x<word>`: any raw word (R59). -/
def rawCommand (w : Word) : Stmt := .wr .cmd (.imm w)

/-- The host statement a command statement stands for. -/
def Command.stmt? : Command → Option Stmt
  | .mnemonic i => assemble i
  | .raw w => some (rawCommand w)

/-! ### The expansions of the pseudo-instructions (R60), with their labels and variables given -/

/-- `wait` (R60), with its label lw and its variable s. -/
def waitStmts (lw s : Nat) : List Stmt := [.label lw, .rd .status s, .bnz s 0x1#64 lw]

/-- `run c` (R60): `c; wait`, for any command statement c. -/
def runStmts (c : Command) (lw s : Nat) : Option (List Stmt) := c.stmt?.map fun st => st :: waitStmts lw s

/-- The writes of limbs i … of v, count of them, to the array whose limb i is `x i`. -/
def loadStmts (x : Nat → Reg) (v : Nat) : Nat → Nat → List Stmt
  | _, 0 => []
  | i, count + 1 => .wr (x i) (.imm (BitVec.ofNat 64 v)) :: loadStmts x (v / 2 ^ 64) (i + 1) count

/-- `lda v` (R60). -/
def ldaStmts (n v : Nat) : List Stmt := loadStmts .a v 0 n

/-- `ldb v` (R60). -/
def ldbStmts (n v : Nat) : List Stmt := loadStmts .b v 0 n

/-- The reads of limbs i … of R, count of them, into the variables t0, t0 + 1, …. -/
def readStmts (t0 : Nat) : Nat → Nat → List Stmt
  | _, 0 => []
  | i, count + 1 => .rd (.r i) (t0 + i) :: readStmts t0 (i + 1) count

/-- `rdr -> t` (R60), with the variables t0 … t0 + N − 1 for the limbs. -/
def rdrStmts (n t t0 : Nat) : List Stmt := readStmts t0 0 n ++ [.sum t ((List.range n).map (t0 + ·))]

/-- `srst` (R60). -/
def srstStmts : List Stmt := [.wr .ctrl (.imm 0x1#64)]

/-! ### Source programs and fresh names -/

/-- One line of a source program: a host statement, a command statement (R59), or a pseudo-instruction (R60). The
variable of a `wait` is one the program names, as programs P2 and P5 of 95_test_vectors.md do when they test `s` after
it, or, with none, one the assembler makes up (log 18). -/
inductive Line where
  | stmt (st : Stmt)
  | command (c : Command)
  | wait (s : Option Nat)
  | run (c : Command) (s : Option Nat)
  | lda (v : Nat)
  | ldb (v : Nat)
  | rdr (t : Nat)
  | srst
deriving DecidableEq, Repr

/-- The labels a statement mentions. -/
def Stmt.labels : Stmt → List Nat
  | .label l => [l]
  | .bnz _ _ l => [l]
  | .bz _ _ l => [l]
  | .wr _ _ | .rd _ _ | .halt | .sum _ _ => []

/-- The host variables a statement mentions. -/
def Stmt.vars : Stmt → List Nat
  | .wr _ (.var t) => [t]
  | .rd _ t => [t]
  | .bnz t _ _ => [t]
  | .bz t _ _ => [t]
  | .sum t ts => t :: ts
  | .wr _ (.imm _) | .label _ | .halt => []

/-- The labels a source line mentions. -/
def Line.labels : Line → List Nat
  | .stmt st => st.labels
  | .command _ | .wait _ | .run _ _ | .lda _ | .ldb _ | .rdr _ | .srst => []

/-- The host variables a source line mentions. -/
def Line.vars : Line → List Nat
  | .stmt st => st.vars
  | .wait s => s.toList
  | .run _ s => s.toList
  | .rdr t => [t]
  | .command _ | .lda _ | .ldb _ | .srst => []

/-- A number above every one of a list. -/
def above (xs : List Nat) : Nat := xs.foldr (fun x m => max (x + 1) m) 0

/-- The next label and the next variable the assembler may make up. -/
structure Names where
  label : Nat
  var : Nat
deriving DecidableEq, Repr

/-- The names no line of a source program mentions. -/
def Names.fresh (lines : List Line) : Names := ⟨above (lines.flatMap Line.labels), above (lines.flatMap Line.vars)⟩

/-- The variable of a `wait`, made up where the program names none. -/
def Names.waitVar (k : Names) (s : Option Nat) : Nat := s.getD k.var

/-- The names left after a `wait` took its label and, where the program names none, its variable. -/
def Names.afterWait (k : Names) (s : Option Nat) : Names := ⟨k.label + 1, if s.isNone then k.var + 1 else k.var⟩

/-- The expansion of one line in a block of n limbs (R60), and the names left. None where the assembler refuses the
line (R59). -/
def expandLine (n : Nat) (line : Line) (k : Names) : Option (List Stmt × Names) :=
  match line with
  | .stmt st => some ([st], k)
  | .command c => c.stmt?.map fun st => ([st], k)
  | .wait s => some (waitStmts k.label (k.waitVar s), k.afterWait s)
  | .run c s => (runStmts c k.label (k.waitVar s)).map fun sts => (sts, k.afterWait s)
  | .lda v => some (ldaStmts n v, k)
  | .ldb v => some (ldbStmts n v, k)
  | .rdr t => some (rdrStmts n t k.var, ⟨k.label, k.var + n⟩)
  | .srst => some (srstStmts, k)

/-- The expansion of a source program, line by line. -/
def expandLines (n : Nat) : List Line → Names → Option (List Stmt × Names)
  | [], k => some ([], k)
  | line :: lines, k =>
    match expandLine n line k with
    | none => none
    | some (sts, k') => (expandLines n lines k').map fun r => (sts ++ r.1, r.2)

/-- A statement an assembler accepts in program p: its register is in the map (R19), its label is defined (R59). -/
def Stmt.assembled (p : List Stmt) : Stmt → Bool
  | .wr x _ => x.inMap
  | .rd x _ => x.inMap
  | .bnz _ _ l => (findLabelFrom p l 0).isSome
  | .bz _ _ l => (findLabelFrom p l 0).isSome
  | .label _ => true
  | .halt => true
  | .sum _ _ => true

/-- The host program of a source program for a block of n limbs, none where the assembler refuses it (R59; log 9). Every
label and variable it makes up is one that no line of the source mentions, and no two are the same (R60). -/
def assembleProgram (n : Nat) (lines : List Line) : Option (List Stmt) :=
  match expandLines n lines (Names.fresh lines) with
  | none => none
  | some r => if r.1.all (Stmt.assembled r.1) then some r.1 else none

end Sys2Proof.Machine
end

