-- ==== Sys2Proof/Machine/Agents.lean ====
section
/-!
DEFINITION. The turns of the three agents (R9) in the total order of R36 and R37.
-/

namespace Sys2Proof.Machine

/-- The datapath's turn: `Complete()`, "enabled iff STATUS.BUSY = 1" (R58). The command in flight runs its second step;
with BUSY = 0 the turn passes (log 2). BUSY = 1 with no command in flight is outside the record's invariant (log 8). -/
def completeTurn (s : State) : Host.Outcome State Fault Refusal :=
  if s.block.busy then
    match s.block.inflight with
    | some f => exec f.instr s
    | none => .fault .noCommandInFlight
  else .next s

/-- One turn of the order. -/
def runEvent (e : Event) (s : State) : Host.Outcome State Fault Refusal :=
  match e with
  | .host => hostTurn s
  | .access x => portAccess x s
  | .complete => completeTurn s
  | .reset => .next (resetBlock s)

/-- The turn when no order is laid down any more: the datapath moves first, so that an accepted command completes (the
weak fairness of R58 and R102), and else the host goes on. DESIGN CHOICE (log 2). -/
def idleTurn (s : State) : Host.Outcome State Fault Refusal :=
  if s.block.busy then completeTurn s else hostTurn s

/-- The next turn of the total order (R36): the first of `order`, which it takes off. -/
def nextTurn (s : State) : Host.Outcome State Fault Refusal :=
  match s.order with
  | e :: rest => runEvent e { s with order := rest }
  | [] => idleTurn s

/-- The write of a CMD word, the only way a command reaches the block (R20, R46), as an access on the port. -/
def commandWrite (c : Config) (w : Word) : Access := .write (c.base + cmdOffset) 8 w

end Sys2Proof.Machine
end

