-- ==== Sys2Proof/Machine/Step.lean ====
section
/-!
DEFINITION. One step of the machine: the next turn of the total order (R36). The block fetches nothing (R25, R41): a
command comes to run because a host writes its word to CMD (log 5).
-/

namespace Sys2Proof.Machine

/-- One step. -/
def step (s : State) : Host.Outcome State Fault Refusal := nextTurn s

/-- The next turn of s becomes the write of the word to CMD (log 5); nothing else changes. -/
def State.withFetchWord (s : State) (nbits w : Nat) : State :=
  { s with order := .access (commandWrite s.cfg (BitVec.ofNat 64 (w % 2 ^ nbits))) :: s.order }

end Sys2Proof.Machine
end

