-- ==== Sys2Proof/Safety.lean ====
section
/-!
DEFINITION. What claims about the machine speak of: the invariant of the record (R15, R16, R26), the legal commands
(R55), the values the spec gives the commands (R62 to R73), and what a successful end is (R83).
-/

namespace Sys2Proof

/-- The commands `Issue` accepts in a block that is neither BUSY nor FAULTED (R55): M in 1 … N (R4, R75), k in 0 … 64·N
(R76). -/
def Instr.Legal (c : Config) (i : Instr) : Prop :=
  1 ≤ i.limbCount c.n ∧ i.limbCount c.n ≤ c.n ∧ i.bitWidth c.n ≤ c.capacity

namespace Machine

/-! ### The forms of STATUS (R15) -/

def Block.IsIdle (b : Block) : Prop := b.busy = false ∧ b.done = false ∧ b.fault = false ∧ b.fcode = 0
def Block.IsBusy (b : Block) : Prop := b.busy = true ∧ b.done = false ∧ b.fault = false ∧ b.fcode = 0
def Block.IsDone (b : Block) : Prop := b.busy = false ∧ b.done = true ∧ b.fault = false ∧ b.fcode = 0
def Block.IsFaulted (b : Block) : Prop :=
  b.busy = false ∧ b.done = false ∧ b.fault = true ∧ 1 ≤ b.fcode.toNat ∧ b.fcode.toNat ≤ 4

/-- "STATUS takes exactly four forms" (R15). -/
def Block.StatusForm (b : Block) : Prop := b.IsIdle ∨ b.IsBusy ∨ b.IsDone ∨ b.IsFaulted

/-- What INFLIGHT may hold (R21, R54): a legal command, with M and k as R54 gives them. -/
def Inflight.Legal (c : Config) (f : Inflight) : Prop := f.instr.Legal c ∧ f = Inflight.ofInstr c f.instr

/-! ### The invariant -/

/-- The invariant of the block's record (R10 to R12, R15, R16, R21, R26). -/
structure Block.Inv (c : Config) (b : Block) : Prop where
  a_length : b.a.length = c.n
  b_length : b.b.length = c.n
  r_length : b.r.length = c.n
  status_form : b.StatusForm
  inflight_iff_busy : b.inflight.isSome = b.busy
  inflight_legal : ∀ f, b.inflight = some f → f.Legal c
  faddr_offset : b.faddr.toNat < 0x4000
  no_record_unless_fault : b.fault = false → b.faddr = 0 ∧ b.fdata = 0

/-- The invariant of the state: the block's, and the canonical form of the host's variables (log 9). -/
structure State.Inv (s : State) : Prop where
  block : s.block.Inv s.cfg
  vars : varsCanon s.host.vars = true

/-! ### The values of the commands, as the value forms of R62 to R73 give them -/

/-- The value `val(Y, N)` a command leaves in R, from the values of A, B and SCALAR as they stand. -/
def commandValue (c : Config) (b : Block) : Instr → Nat
  | .zero => 0
  | .fromsc => b.scalar.toNat
  | .add => (val b.a + val b.b) % 2 ^ (64 * c.n)
  | .addm m => (val b.a + val (b.b.take m)) % 2 ^ (64 * c.n)
  | .mul => val b.a * val b.b % 2 ^ (64 * c.n)
  | .mulm m => val b.a * val (b.b.take m) % 2 ^ (64 * c.n)
  | .addmod k => (val b.a + val b.b) % 2 ^ k
  | .mulmod k => val b.a * val b.b % 2 ^ k

/-- The block after `Complete()` with result Y (R58): everything else stays. -/
def Block.completed (y : List Word) (b : Block) : Block :=
  { b with r := y, inflight := none, busy := false, done := true }

/-- The block after `Accept` of a command (R56): everything else stays. -/
def Block.accepted (c : Config) (i : Instr) (b : Block) : Block :=
  { b with inflight := some ⟨i.op, i.limbCount c.n, i.bitWidth c.n⟩, done := false, busy := true }

/-- The block after a fault (R78): everything else stays. -/
def Block.faulted (code : BitVec 4) (off data : Word) (b : Block) : Block :=
  { b with fault := true, fcode := code, faddr := off, fdata := data, busy := false, done := false, inflight := none }

/-- The block can take a command: neither BUSY nor FAULTED (R55). -/
def State.Ready (s : State) : Prop := s.block.busy = false ∧ s.block.fault = false

/-- Command i is in flight (R21, R56). -/
def State.Running (i : Instr) (s : State) : Prop :=
  s.block.busy = true ∧ s.block.inflight = some ⟨i.op, i.limbCount s.cfg.n, i.bitWidth s.cfg.n⟩

/-- s with an access as its next turn, before the turns `rest`. -/
def State.withAccess (x : Access) (rest : List Event) (s : State) : State := { s with order := .access x :: rest }

/-- s with an admitted write of v at an offset as its next turn. -/
def State.withWrite (off : Nat) (v : Word) (rest : List Event) (s : State) : State :=
  s.withAccess (.write (s.cfg.base + off) 8 v) rest

/-- s with its order of turns replaced and its block changed. -/
def State.setBlock (b : Block) (rest : List Event) (s : State) : State := { s with order := rest, block := b }

/-- What a write of w, the word of command i, to CMD does in every state (R55, R81). A command without M or without k
meets no state of the size or of the width clause. -/
structure IssueOutcomes (w : Word) (i : Instr) : Prop where
  decodes : decode w = .ok i
  ignored : ∀ (s : State) (rest : List Event), s.block.fault = true →
    step (s.withWrite 0x18 w rest) = .next (s.setBlock s.block rest)
  busy : ∀ (s : State) (rest : List Event), s.block.fault = false → s.block.busy = true →
    step (s.withWrite 0x18 w rest) = .next (s.setBlock (s.block.faulted 4 0x18 w) rest)
  size_order : ∀ (s : State) (rest : List Event), s.Ready → s.cfg.n < i.limbCount s.cfg.n →
    step (s.withWrite 0x18 w rest) = .next (s.setBlock (s.block.faulted 1 0x18 w) rest)
  bitsize_range : ∀ (s : State) (rest : List Event), s.Ready → s.cfg.capacity < i.bitWidth s.cfg.n →
    step (s.withWrite 0x18 w rest) = .next (s.setBlock (s.block.faulted 2 0x18 w) rest)
  accepted : ∀ (s : State) (rest : List Event), s.Ready → i.Legal s.cfg →
    step (s.withWrite 0x18 w rest) = .next (s.setBlock (s.block.accepted s.cfg i) rest)

/-- A write of w to CMD raises ILLEGAL_COMMAND in a block that can take a command (R77). -/
def IllegalOutcome (w : Word) : Prop :=
  ∀ (s : State) (rest : List Event), s.Ready →
    step (s.withWrite 0x18 w rest) = .next (s.setBlock (s.block.faulted 3 0x18 w) rest)

/-- The illegal words of R52 and R53: OPC 0x0 or 0x9 … 0xF, a set reserved bit, a non-zero unused field. -/
def IllegalFields (w : Word) : Prop :=
  w.extractLsb' 48 16 ≠ 0 ∨ w.extractLsb' 26 6 ≠ 0 ∨ w.extractLsb' 4 12 ≠ 0 ∨
  (w.extractLsb' 0 4).toNat = 0 ∨ 9 ≤ (w.extractLsb' 0 4).toNat ∨
  (w.extractLsb' 16 10 ≠ 0 ∧ w.extractLsb' 0 4 ≠ 4 ∧ w.extractLsb' 0 4 ≠ 6) ∨
  (w.extractLsb' 32 16 ≠ 0 ∧ w.extractLsb' 0 4 ≠ 7 ∧ w.extractLsb' 0 4 ≠ 8)

/-- The `Complete()` step of command i in a state where it is in flight writes limbs of value v to R and nothing else
beside STATUS and INFLIGHT (R58). -/
def CompletesWith (i : Instr) (s : State) (v : Nat) : Prop :=
  ∃ y : List Word, exec i s = .next { s with block := s.block.completed y } ∧ y.length = s.cfg.n ∧ val y = v

/-! ### Runs -/

/-- A successful end of a host program. R83 says one thing of it: "a state with FAULT = 1 is a fault outcome: never a
successful end of a host program". That it also needs the program ended and BUSY = 0, so that a host which halts with a
command in flight has not ended successfully, is the model's own: DESIGN CHOICE (log 17). -/
def State.SuccessfulEnd (s : State) : Prop := hostEnded s = true ∧ s.block.busy = false ∧ s.block.fault = false

/-- No turn of s is one the model refuses: its program is assembled, and its accesses are admitted or not the block's. -/
structure State.WellPosed (s : State) : Prop where
  program : ∀ st ∈ s.host.program, st.assembled s.host.program = true
  order : ∀ x, .access x ∈ s.order → reachesWindow s.cfg x = true → admitted s.cfg x = true

/-- The accesses that neither abandon the command in flight nor touch it: those that are not the block's, admitted
reads, and admitted writes that are neither an operand or CMD write (R79) nor a soft reset (R94). -/
def Access.harmless (c : Config) (x : Access) : Bool :=
  !(reachesWindow c x) ||
  (admitted c x &&
    match x with
    | .read _ _ => true
    | .write addr _ v =>
      match decodeOffset c (addr - c.base) with
      | some .ctrl => !(v.getLsbD 0)
      | some .cmd | some .scalar | some (.a _) | some (.b _) => false
      | some .param | some .status | some .faddr | some .fdata | some (.r _) | none => true)

/-- Is the host's next statement one that an assembler accepts and whose access, if it writes, is harmless? A read, a
label, a branch and `halt` abandon nothing (R60, R97). -/
def State.hostHarmless (s : State) : Bool :=
  match s.host.program[s.host.pos]? with
  | none => true
  | some st =>
    st.assembled s.host.program &&
      match st with
      | .wr x v => Access.harmless s.cfg (.write (s.cfg.base + x.offset) 8 (sourceValue v s))
      | .rd _ _ | .label _ | .bnz _ _ _ | .bz _ _ _ | .halt | .sum _ _ => true

/-- Is the next turn of s one that abandons no command in flight (R58, R102)? With no turn laid down it is the
datapath's (log 2). -/
def State.turnHarmless (s : State) : Bool :=
  match s.order with
  | [] => true
  | .host :: _ => s.hostHarmless
  | .access x :: _ => x.harmless s.cfg
  | .complete :: _ => true
  | .reset :: _ => false

/-! ### Assembled programs -/

/-- The line `line`, a `wait` or a `run` (R60), of the source `before ++ line :: after` has a fresh wait in the assembled
program p. There p is, in this order, the expansion of `before`, the statements `lead`, the three statements of a
`wait`, and the expansion of `after` from the names the line leaves. No other statement of p mentions the label of that
`wait`, so its branch goes back to its own label; its variable is the one the source names, or one no other statement
mentions. -/
def HasFreshWait (n : Nat) (before : List Line) (line : Line) (after : List Line) (named : Option Nat)
    (lead p : List Stmt) : Prop :=
  ∃ (pre post : List Stmt) (k k' k'' : Names) (lw v : Nat),
    expandLines n before (Names.fresh (before ++ line :: after)) = some (pre, k) ∧
    expandLine n line k = some (lead ++ waitStmts lw v, k') ∧ expandLines n after k' = some (post, k'') ∧
    p = pre ++ lead ++ waitStmts lw v ++ post ∧ findLabelFrom p lw 0 = some (pre.length + lead.length) ∧
    (∀ st ∈ pre ++ lead ++ post, lw ∉ st.labels) ∧
    (∀ x, named = some x → v = x) ∧ (named = none → ∀ st ∈ pre ++ lead ++ post, v ∉ st.vars)

end Machine

end Sys2Proof
end

