-- ==== Sys2Proof/Certificates/Slice0/Obligations.lean ====
section
/-!
DEFINITION. The statements for the provers. `s.withWrite off v rest` is s with an admitted write as its next turn and
the turns `rest` after it; `s.setBlock b rest` is s with block b and the turns `rest` left (Safety.lean).
-/

open Sys2Proof Sys2Proof.Machine

/-! ### Reset and configuration -/

/-- R93, every row of its table. `State.resetOf c` is the state a run starts from (R92). That the host, the order of
turns and `lastRead` stay in a hardware reset is the model's own reading (log 12). -/
def Obligations.ResetSetsEveryRegister : Prop :=
  ∀ (s : State) (rest : List Event),
    (∀ b : Block, b = ⟨List.replicate s.cfg.n 0, List.replicate s.cfg.n 0, List.replicate s.cfg.n 0, 0,
        false, false, false, 0, 0, 0, none⟩ →
      step { s with order := .reset :: rest } = .next (s.setBlock b rest) ∧
      (State.resetOf s.cfg).block = b ∧ statusWord b = 0 ∧ val b.r = 0 ∧
      windowRead s.cfg b 0x0 = windowRead s.cfg s.block 0x0 ∧ windowRead s.cfg b 0x8 = 0 ∧ windowRead s.cfg b 0x18 = 0)

/-- R94 and R18: a write to CTRL with bit 0 set does, in every state, exactly what the reset source does; with bit 0
clear it does nothing; CTRL reads 0; and in FAULTED no other access of the window clears FAULT. -/
def Obligations.SoftResetIsReset : Prop :=
  ∀ (s : State) (v : Word) (rest : List Event),
    (v.getLsbD 0 = true →
      step (s.withWrite 0x8 v rest) = step { s with order := .reset :: rest } ∧
      step (s.withWrite 0x8 v rest) = .next (s.setBlock (Block.reset s.cfg) rest)) ∧
    (v.getLsbD 0 = false → step (s.withWrite 0x8 v rest) = .next (s.setBlock s.block rest)) ∧
    step (s.withAccess (.read (s.cfg.base + 0x8) 8) rest) = .next { s with order := rest, lastRead := some 0 } ∧
    (s.block.fault = true → s.block.busy = false → ∀ off, off < 0x4000 → off % 8 = 0 →
      (off ≠ 0x8 → ∃ t, step (s.withWrite off v rest) = .next t ∧ t.block.fault = true) ∧
      (∃ t, step (s.withAccess (.read (s.cfg.base + off) 8) rest) = .next t ∧ t.block.fault = true))

/-- R95: a reset or a soft reset while BUSY = 1 abandons the command; the datapath's next turn does nothing. That the
host stays in a hardware reset (log 12), and that a turn with BUSY = 0 passes (log 2), are the model's own readings. -/
def Obligations.ResetAbandonsTheCommandInFlight : Prop :=
  ∀ (s : State) (v : Word) (rest : List Event), s.block.busy = true → v.getLsbD 0 = true →
    (∃ t, step { s with order := .reset :: .complete :: rest } = .next t ∧
      step t = .next (s.setBlock (Block.reset s.cfg) rest)) ∧
    (∃ t, step (s.withWrite 0x8 v (.complete :: rest)) = .next t ∧
      step t = .next (s.setBlock (Block.reset s.cfg) rest))

/-- R1: N is 1 to 512, other configurations cannot be built, no step changes N, the capacity is 64·N bits, and A, B and
R have N limbs at reset and after every step. The clause on BASE is R19's alignment. -/
def Obligations.LimbCountIsABuildConstant : Prop :=
  (∀ n base, Config.make? n base = none ↔ n = 0 ∨ 512 < n ∨ base % 0x4000 ≠ 0) ∧
  (∀ c : Config, 1 ≤ c.n ∧ c.n ≤ 512 ∧ c.capacity = 64 * c.n ∧ (State.resetOf c).block.a.length = c.n ∧
    (State.resetOf c).block.b.length = c.n ∧ (State.resetOf c).block.r.length = c.n) ∧
  (∀ s t, step s = .next t → t.cfg = s.cfg ∧
    (s.Inv → t.block.a.length = s.cfg.n ∧ t.block.b.length = s.cfg.n ∧ t.block.r.length = s.cfg.n))

/-- The state after reset meets the invariant, for every N and BASE (R15, R26, R93). -/
def Obligations.ResetMeetsTheInvariant : Prop := ∀ c : Config, (State.resetOf c).Inv

/-- Every step keeps the invariant: the four forms of STATUS (R15), INFLIGHT.isSome = BUSY with a legal command in it
(R26), N limbs in A, B and R, no fault record while FAULT = 0 (R16), and the canonical form of the host's variables,
which is the model's own (log 9). -/
def Obligations.EveryStepKeepsTheInvariant : Prop := ∀ s t : State, s.Inv → step s = .next t → t.Inv

/-- From a state that meets the invariant, a well-posed turn always has a next state: no step faults, and only a bus
error or a program no assembler accepts is refused (R29, R59). -/
def Obligations.WellPosedTurnsAlwaysStep : Prop := ∀ s : State, s.Inv → s.WellPosed → ∃ t, step s = .next t

/-! ### Encoding -/

/-- Encoding and decoding agree on every well-formed command, with every M and k the fields admit. -/
def Obligations.DecodeOfEncode : Prop := ∀ i : Instr, i.WellFormed → decode (encode i) = .ok i

/-- Each legal word is the encoding of the command it decodes to. -/
def Obligations.EncodeOfDecode : Prop := ∀ (w : Word) (i : Instr), decode w = .ok i → i.WellFormed ∧ encode i = w

/-- R51: a word is a command exactly when it matches that command's row, and no word matches two rows. -/
def Obligations.DecodeAgreesWithMatchAndMask : Prop :=
  ∀ w : Word,
    (∀ row ∈ opcodeTable, row.Matches w ↔ ∃ i, decode w = .ok i ∧ i.op = row.op) ∧
    (∀ row ∈ opcodeTable, ∀ row' ∈ opcodeTable, row.Matches w → row'.Matches w → row = row')

/-- R53: exactly which words are illegal, field by field; they are those that match no row of R51, and writing one to
CMD raises ILLEGAL_COMMAND. The all-zero word is one. -/
def Obligations.IllegalWordsAreExactly : Prop :=
  ∀ w : Word,
    (IllegalFields w ↔ ∃ e, decode w = .error e) ∧ (IllegalFields w ↔ ∀ row ∈ opcodeTable, ¬row.Matches w) ∧
    (IllegalFields w → IllegalOutcome w) ∧ IllegalFields 0 ∧ IllegalOutcome 0

/-- R49 and R50: M = MM1 + 1 is 1 to 1024, and k = BITSIZE is 0 to 65535. -/
def Obligations.FieldsGiveMAndK : Prop :=
  ∀ w : Word,
    (∀ m, decode w = .ok (.addm m) ∨ decode w = .ok (.mulm m) →
      m = (w.extractLsb' 16 10).toNat + 1 ∧ 1 ≤ m ∧ m ≤ 1024) ∧
    (∀ k, decode w = .ok (.addmod k) ∨ decode w = .ok (.mulmod k) →
      k = (w.extractLsb' 32 16).toNat ∧ k ≤ 65535)

/-- Words written out from the spec's encodings (R51, R59, 95_test_vectors.md table A) decode to their commands. -/
def Obligations.WrittenOutWordsDecode : Prop :=
  decode 0x0000000000000001#64 = .ok .zero ∧ decode 0x0000000000000002#64 = .ok .fromsc ∧
  decode 0x0000000000000003#64 = .ok .add ∧ decode 0x0000000000030004#64 = .ok (.addm 4) ∧
  decode 0x0000000000000005#64 = .ok .mul ∧ decode 0x0000000003FF0006#64 = .ok (.mulm 1024) ∧
  decode 0x0000010000000007#64 = .ok (.addmod 256) ∧ decode 0x0000FFFF00000008#64 = .ok (.mulmod 65535)

/-- The eight little-endian bytes of a word (R30) decode as the word does, and a table word is laid out so. -/
def Obligations.BytesDecodeAsTheWord : Prop :=
  ∀ w : Word, decodeBytes (bytesOfWord w) = (decode w).toOption ∧
    decodeTableWord 64 w.toNat = (decode w).toOption

/-! ### A step runs the decoded command -/

/-- The write of a legal word to CMD, by any master, is the step of that command; withFetchWord places such a write. -/
def Obligations.StepRunsTheWrittenCommand : Prop :=
  ∀ (s : State) (rest : List Event) (w : Word) (i : Instr), decode w = .ok i → s.Ready →
    step (s.withWrite 0x18 w rest) = exec i { s with order := rest } ∧
    step (s.withFetchWord 64 w.toNat) = exec i s

/-- A host statement `wr CMD, w` is the same step, with the host gone on to its next statement. -/
def Obligations.StepRunsTheHostsCommand : Prop :=
  ∀ (s : State) (rest : List Event) (w : Word) (i : Instr), decode w = .ok i → s.Ready →
    s.host.program[s.host.pos]? = some (.wr .cmd (.imm w)) →
    step { s with order := .host :: rest } =
      exec i { s with order := rest, host := { s.host with pos := s.host.pos + 1 } }

/-- The datapath's turn is the second step of the command in flight, wherever it falls in the order (R37), and with no
order laid down it comes first (log 2). -/
def Obligations.StepRunsTheCommandInFlight : Prop :=
  ∀ (s : State) (rest : List Event) (i : Instr), s.Running i →
    step { s with order := .complete :: rest } = exec i { s with order := rest } ∧
    step { s with order := [] } = exec i { s with order := [] }

/-! ### Issue (R55 to R56, R74 to R82) -/

/-- R56. The datapath's turn that may follow completes the command. -/
def Obligations.AcceptSetsInflightAndBusy : Prop :=
  ∀ (i : Instr) (s t : State) (rest : List Event), s.Ready → i.Legal s.cfg →
    t = { s with block := { s.block with
      inflight := some ⟨i.op, i.limbCount s.cfg.n, i.bitWidth s.cfg.n⟩, done := false, busy := true } } →
    exec i s = .next t ∧ ∃ u, step { t with order := .complete :: rest } = .next u ∧ u.block.done = true

/-- R75: the write of a legal ADDM or MULM word with M > N. M = N does not fault. -/
def Obligations.SizeOrderFault : Prop :=
  ∀ (s : State) (rest : List Event) (w : Word) (m : Nat), s.Ready →
    (decode w = .ok (.addm m) ∨ decode w = .ok (.mulm m)) →
    (s.cfg.n < m → step (s.withWrite 0x18 w rest) = .next (s.setBlock (s.block.faulted 1 0x18 w) rest)) ∧
    (m ≤ s.cfg.n → ∃ t, step (s.withWrite 0x18 w rest) = .next t ∧ t.block.fault = false ∧ t.block.busy = true)

/-- R76: the write of a legal ADDMOD or MULMOD word with k > 64·N. k = 64·N and k = 0 do not fault. -/
def Obligations.BitsizeRangeFault : Prop :=
  ∀ (s : State) (rest : List Event) (w : Word) (k : Nat), s.Ready →
    (decode w = .ok (.addmod k) ∨ decode w = .ok (.mulmod k)) →
    (64 * s.cfg.n < k → step (s.withWrite 0x18 w rest) = .next (s.setBlock (s.block.faulted 2 0x18 w) rest)) ∧
    (k ≤ 64 * s.cfg.n → ∃ t, step (s.withWrite 0x18 w rest) = .next t ∧ t.block.fault = false ∧ t.block.busy = true)

/-- R77: the write of an illegal word. -/
def Obligations.IllegalCommandFault : Prop :=
  ∀ (s : State) (rest : List Event) (w : Word) (e : Illegal), s.Ready → decode w = .error e →
    step (s.withWrite 0x18 w rest) = .next (s.setBlock (s.block.faulted 3 0x18 w) rest)

/-- R81: the first condition that applies decides, for every word in every state. -/
def Obligations.IssuePriority : Prop :=
  ∀ (s : State) (rest : List Event) (w : Word),
    step (s.withWrite 0x18 w rest) = .next (s.setBlock
      (if s.block.fault = true then s.block
       else if s.block.busy = true then s.block.faulted 4 0x18 w
       else match decode w with
        | .error _ => s.block.faulted 3 0x18 w
        | .ok i =>
          if s.cfg.n < i.limbCount s.cfg.n then s.block.faulted 1 0x18 w
          else if 64 * s.cfg.n < i.bitWidth s.cfg.n then s.block.faulted 2 0x18 w
          else s.block.accepted s.cfg i) rest)

/-- R79: a write to CMD, SCALAR, A[i] or B[i] while BUSY = 1. The write is not performed, the command in flight is
abandoned, and the datapath's next turn does not complete it. No other access of the window is a busy violation. That
the datapath's turn with BUSY = 0 passes, where R58 says its step is not enabled, is the model's own reading (log 2). -/
def Obligations.BusyViolationAbandonsTheCommand : Prop :=
  ∀ (s : State) (rest : List Event) (v : Word) (off : Nat), s.block.busy = true → s.block.fault = false →
    (off = 0x18 ∨ off = 0x20 ∨ (∃ i, i < s.cfg.n ∧ (off = 0x1000 + 8 * i ∨ off = 0x2000 + 8 * i)) →
      ∃ t, step (s.withWrite off v (.complete :: rest)) = .next t ∧
        t.block = s.block.faulted 4 (BitVec.ofNat 64 off) v ∧
        step t = .next (s.setBlock (s.block.faulted 4 (BitVec.ofNat 64 off) v) rest)) ∧
    (off < 0x4000 → off % 8 = 0 →
      (off ≠ 0x18 ∧ off ≠ 0x20 ∧ (∀ i, i < s.cfg.n → off ≠ 0x1000 + 8 * i ∧ off ≠ 0x2000 + 8 * i) →
        ∃ t, step (s.withWrite off v rest) = .next t ∧ t.block.fault = false) ∧
      (∃ t, step (s.withAccess (.read (s.cfg.base + off) 8) rest) = .next t ∧ t.block = s.block))

/-- R80: a fault is sticky. With FAULT = 1 every CMD write is ignored, and a write to A, B or SCALAR is performed; and
whatever the turn, the record and R stay, or the block is reset. -/
def Obligations.FaultIsSticky : Prop :=
  (∀ (s : State) (rest : List Event) (v : Word), s.block.fault = true → s.block.busy = false →
    step (s.withWrite 0x18 v rest) = .next (s.setBlock s.block rest) ∧
    step (s.withWrite 0x20 v rest) = .next (s.setBlock { s.block with scalar := v } rest) ∧
    (∀ i, i < s.cfg.n →
      step (s.withWrite (0x1000 + 8 * i) v rest) = .next (s.setBlock { s.block with a := s.block.a.set i v } rest) ∧
      step (s.withWrite (0x2000 + 8 * i) v rest) = .next (s.setBlock { s.block with b := s.block.b.set i v } rest))) ∧
  (∀ s t : State, s.Inv → s.block.fault = true → s.block.busy = false ∧ (step s = .next t →
    (t.block.fault = true ∧ t.block.fcode = s.block.fcode ∧ t.block.faddr = s.block.faddr ∧
      t.block.fdata = s.block.fdata ∧ t.block.r = s.block.r ∧ t.block.inflight = none) ∨
    t.block = Block.reset s.cfg))

/-! ### The commands (R62 to R73): words, outcomes at Issue, result and frame at completion -/

/-- R62. -/
def Obligations.ZeroCommand : Prop :=
  IssueOutcomes 0x1#64 .zero ∧
  (∀ w : Word, opcField w = 0x1#4 → w ≠ 0x1#64 → IllegalOutcome w) ∧
  (∀ s : State, s.Running .zero →
    exec .zero s = .next { s with block := s.block.completed (List.replicate s.cfg.n 0) })

/-- R63. The limbs are SCALAR and N − 1 zeros: nothing is sign-extended. -/
def Obligations.FromscCommand : Prop :=
  IssueOutcomes 0x2#64 .fromsc ∧
  (∀ w : Word, opcField w = 0x2#4 → w ≠ 0x2#64 → IllegalOutcome w) ∧
  (∀ s : State, s.Running .fromsc →
    exec .fromsc s = .next { s with block := s.block.completed (s.block.scalar :: List.replicate (s.cfg.n - 1) 0) } ∧
    CompletesWith .fromsc s s.block.scalar.toNat)

/-- R65. -/
def Obligations.AddCommand : Prop :=
  IssueOutcomes 0x3#64 .add ∧
  (∀ w : Word, opcField w = 0x3#4 → w ≠ 0x3#64 → IllegalOutcome w) ∧
  (∀ s : State, s.Inv → s.Running .add →
    CompletesWith .add s ((val s.block.a + val s.block.b) % 2 ^ (64 * s.cfg.n)))

/-- R66. -/
def Obligations.AddmCommand : Prop :=
  (∀ m, 1 ≤ m → m ≤ 1024 → IssueOutcomes (0x4#64 ||| (BitVec.ofNat 64 (m - 1) <<< 16)) (.addm m)) ∧
  (∀ w : Word, opcField w = 0x4#4 → (∀ m, 1 ≤ m → m ≤ 1024 → w ≠ 0x4#64 ||| (BitVec.ofNat 64 (m - 1) <<< 16)) →
    IllegalOutcome w) ∧
  (∀ (s : State) (m : Nat), s.Inv → s.Running (.addm m) →
    CompletesWith (.addm m) s ((val s.block.a + val (s.block.b.take m)) % 2 ^ (64 * s.cfg.n)))

/-- R68: the value, and the reference algorithm that gives it. -/
def Obligations.MulCommand : Prop :=
  IssueOutcomes 0x5#64 .mul ∧
  (∀ w : Word, opcField w = 0x5#4 → w ≠ 0x5#64 → IllegalOutcome w) ∧
  (∀ s : State, s.Inv → s.Running .mul →
    CompletesWith .mul s (val s.block.a * val s.block.b % 2 ^ (64 * s.cfg.n)) ∧
    exec .mul s = .next { s with block := s.block.completed (schoolbook s.cfg.n s.block.a s.block.b) })

/-- R69: the value, and R68's reference algorithm with j over the low M limbs of B. -/
def Obligations.MulmCommand : Prop :=
  (∀ m, 1 ≤ m → m ≤ 1024 → IssueOutcomes (0x6#64 ||| (BitVec.ofNat 64 (m - 1) <<< 16)) (.mulm m)) ∧
  (∀ w : Word, opcField w = 0x6#4 → (∀ m, 1 ≤ m → m ≤ 1024 → w ≠ 0x6#64 ||| (BitVec.ofNat 64 (m - 1) <<< 16)) →
    IllegalOutcome w) ∧
  (∀ (s : State) (m : Nat), s.Inv → s.Running (.mulm m) →
    CompletesWith (.mulm m) s (val s.block.a * val (s.block.b.take m) % 2 ^ (64 * s.cfg.n)) ∧
    exec (.mulm m) s = .next { s with block := s.block.completed (schoolbook s.cfg.n s.block.a (s.block.b.take m)) })

/-- R72: the sum of ADD, masked, and its value. -/
def Obligations.AddmodCommand : Prop :=
  (∀ k, k ≤ 65535 → IssueOutcomes (0x7#64 ||| (BitVec.ofNat 64 k <<< 32)) (.addmod k)) ∧
  (∀ w : Word, opcField w = 0x7#4 → (∀ k, k ≤ 65535 → w ≠ 0x7#64 ||| (BitVec.ofNat 64 k <<< 32)) →
    IllegalOutcome w) ∧
  (∀ (s : State) (k : Nat), s.Inv → s.Running (.addmod k) →
    CompletesWith (.addmod k) s ((val s.block.a + val s.block.b) % 2 ^ k) ∧
    exec (.addmod k) s = .next { s with block := s.block.completed (maskLimbs k (ripple s.block.a s.block.b false)) })

/-- R73: the value; it is MUL's result masked, and the low-limbs-only method gives it. -/
def Obligations.MulmodCommand : Prop :=
  (∀ k, k ≤ 65535 → IssueOutcomes (0x8#64 ||| (BitVec.ofNat 64 k <<< 32)) (.mulmod k)) ∧
  (∀ w : Word, opcField w = 0x8#4 → (∀ k, k ≤ 65535 → w ≠ 0x8#64 ||| (BitVec.ofNat 64 k <<< 32)) →
    IllegalOutcome w) ∧
  (∀ (s : State) (k : Nat), s.Inv → s.Running (.mulmod k) →
    CompletesWith (.mulmod k) s (val s.block.a * val s.block.b % 2 ^ k) ∧
    exec (.mulmod k) s = .next { s with block := s.block.completed (maskLimbs k (mulLimbs s.cfg.n s.block.a s.block.b)) } ∧
    exec (.mulmod k) s = .next { s with block := s.block.completed (mulmodLowLimbs s.cfg.n k s.block.a s.block.b) })

/-- The headline: every legal command written to a ready block and completed leaves its value in R, sets DONE, and
changes nothing else. -/
def Obligations.EveryLegalCommandRunsToItsValue : Prop :=
  ∀ (s : State) (i : Instr) (rest : List Event), s.Inv → s.Ready → i.WellFormed → i.Legal s.cfg →
    ∃ (t : State) (y : List Word),
      step (s.withWrite 0x18 (encode i) (.complete :: rest)) = .next t ∧ t.block = s.block.accepted s.cfg i ∧
      step t = .next (s.setBlock { s.block with r := y, inflight := none, busy := false, done := true } rest) ∧
      y.length = s.cfg.n ∧ val y = commandValue s.cfg s.block i

/-- The frame of every command, in either step: A, B, SCALAR, the configuration, the host and the order stay, and so
does every byte of the window outside R, STATUS, FADDR and FDATA (R22). -/
def Obligations.CommandsNeverTouchTheOperands : Prop :=
  ∀ (i : Instr) (s t : State), exec i s = .next t →
    t.block.a = s.block.a ∧ t.block.b = s.block.b ∧ t.block.scalar = s.block.scalar ∧ t.cfg = s.cfg ∧
    t.host = s.host ∧ t.order = s.order ∧ t.lastRead = s.lastRead ∧
    (∀ addr, ¬(0x3000 ≤ addr ∧ addr < 0x3000 + 8 * s.cfg.n) → ¬(0x10 ≤ addr ∧ addr < 0x18) →
      ¬(0x28 ≤ addr ∧ addr < 0x38) →
      windowByte t.cfg t.block addr = windowByte s.cfg s.block addr)

/-- ADDM and MULM ignore the limbs of B at and above M (R11, R66, R69): two states that differ there only end alike. -/
def Obligations.HighLimbsOfBDoNotMatter : Prop :=
  ∀ (s t : State) (m : Nat) (b' : List Word), b'.take m = s.block.b.take m →
    (exec (.addm m) s = .next t →
      exec (.addm m) { s with block := { s.block with b := b' } } = .next { t with block := { t.block with b := b' } }) ∧
    (exec (.mulm m) s = .next t →
      exec (.mulm m) { s with block := { s.block with b := b' } } = .next { t with block := { t.block with b := b' } })

/-! ### The arithmetic of the commands -/

/-- `val` and `pack` (R7). -/
def Obligations.PackInvertsVal : Prop :=
  (∀ xs : List Word, val xs = ∑ i ∈ Finset.range xs.length, (xs.getD i 0).toNat * 2 ^ (64 * i)) ∧
  ∀ v n : Nat, val (pack v n) = v % 2 ^ (64 * n) ∧ (pack v n).length = n ∧
    ∀ i, i < n → ((pack v n).getD i 0).toNat = v / 2 ^ (64 * i) % 2 ^ 64

/-- R64: the limb step, its two overflows never both. -/
def Obligations.AddStepIsExact : Prop :=
  ∀ (x y : Word) (c : Bool),
    (addStep x y c).1.toNat = (x.toNat + y.toNat + c.toNat) % 2 ^ 64 ∧
    (addStep x y c).2.toNat = (x.toNat + y.toNat + c.toNat) / 2 ^ 64 ∧
    ¬(2 ^ 64 ≤ x.toNat + y.toNat ∧ 2 ^ 64 ≤ (x.toNat + y.toNat) % 2 ^ 64 + c.toNat)

/-- The reference algorithm of R68 and R69, with its rippling AddAt, gives the value form for every N and M. -/
def Obligations.SchoolbookGivesTheProduct : Prop :=
  ∀ (n : Nat) (xs ys : List Word), schoolbook n xs ys = mulLimbs n xs ys

/-- A carry-save tree of any depth gives the same product as the schoolbook loop, as R67 says of every such network. The
tree of 3:2 layers over all partial products is the model's own shape (DESIGN CHOICE, log 16). -/
def Obligations.CarrySaveTreeGivesTheProduct : Prop :=
  ∀ (depth n : Nat) (xs ys : List Word),
    carrySaveProduct depth n xs ys = mulLimbs n xs ys ∧ carrySaveProduct depth n xs ys = schoolbook n xs ys

/-- R70: the mask keeps the value modulo 2^k, so every bit at or above k is 0 and every bit below k is kept. -/
def Obligations.MaskKeepsTheLowBits : Prop :=
  ∀ (k : Nat) (ys : List Word), k ≤ 64 * ys.length →
    (maskLimbs k ys).length = ys.length ∧ val (maskLimbs k ys) = val ys % 2 ^ k ∧
    ∀ j, (val (maskLimbs k ys)).testBit j = (decide (j < k) && (val ys).testBit j)

/-- R71: the three boundary cases of the mask. -/
def Obligations.MaskBoundaryCases : Prop :=
  ∀ ys : List Word,
    maskLimbs 0 ys = List.replicate ys.length 0 ∧
    (∀ q, 0 < q → q ≤ ys.length → maskLimbs (64 * q) ys = ys.take q ++ List.replicate (ys.length - q) 0) ∧
    maskLimbs (64 * ys.length) ys = ys

/-- R73: MULMOD's value is MUL's result masked, for every k the block can hold. -/
def Obligations.MulmodIsMaskedMul : Prop :=
  ∀ (n k : Nat) (xs ys : List Word), k ≤ 64 * n → mulmodLimbs n k xs ys = maskLimbs k (mulLimbs n xs ys)

/-- R73: computing the low nlimbs product positions only, with the carries kept, gives the same value. -/
def Obligations.MulmodByLowLimbsOnly : Prop :=
  ∀ (n k : Nat) (xs ys : List Word), k ≤ 64 * n → mulmodLowLimbs n k xs ys = mulmodLimbs n k xs ys

/-! ### The register window -/

/-- R32: what every admitted read returns, and that it changes no state of the block. -/
def Obligations.ReadsReturnTheRegisterMap : Prop :=
  ∀ (s : State) (rest : List Event) (rd : Nat → Host.Outcome State Fault Refusal)
    (ans : Word → Host.Outcome State Fault Refusal),
    (∀ off, rd off = step (s.withAccess (.read (s.cfg.base + off) 8) rest)) →
    (∀ v, ans v = .next { s with order := rest, lastRead := some v }) →
    rd 0x0 = ans (paramWord s.cfg) ∧ rd 0x8 = ans 0 ∧ rd 0x10 = ans (statusWord s.block) ∧ rd 0x18 = ans 0 ∧
    rd 0x20 = ans s.block.scalar ∧ rd 0x28 = ans s.block.faddr ∧ rd 0x30 = ans s.block.fdata ∧
    (∀ i, i < s.cfg.n → rd (0x1000 + 8 * i) = ans (s.block.a.getD i 0) ∧
      rd (0x2000 + 8 * i) = ans (s.block.b.getD i 0) ∧ rd (0x3000 + 8 * i) = ans (s.block.r.getD i 0)) ∧
    (∀ off, 0x38 ≤ off → off < 0x4000 → off % 8 = 0 →
      (∀ i, i < s.cfg.n → off ≠ 0x1000 + 8 * i ∧ off ≠ 0x2000 + 8 * i ∧ off ≠ 0x3000 + 8 * i) → rd off = ans 0)

/-- R33: the write decode. The CMD row is `Issue`, as Obligations.IssuePriority writes it out. -/
def Obligations.WritesFollowTheDecode : Prop :=
  ∀ (s : State) (rest : List Event) (v : Word),
    step (s.withWrite 0x8 v rest) = .next (s.setBlock (if v.getLsbD 0 = true then Block.reset s.cfg else s.block) rest) ∧
    step (s.withWrite 0x18 v rest) = issue v { s with order := rest } ∧
    step (s.withWrite 0x20 v rest) = .next (s.setBlock
      (if s.block.busy = true then s.block.faulted 4 0x20 v else { s.block with scalar := v }) rest) ∧
    (∀ i, i < s.cfg.n →
      step (s.withWrite (0x1000 + 8 * i) v rest) = .next (s.setBlock
        (if s.block.busy = true then s.block.faulted 4 (BitVec.ofNat 64 (0x1000 + 8 * i)) v
         else { s.block with a := s.block.a.set i v }) rest) ∧
      step (s.withWrite (0x2000 + 8 * i) v rest) = .next (s.setBlock
        (if s.block.busy = true then s.block.faulted 4 (BitVec.ofNat 64 (0x2000 + 8 * i)) v
         else { s.block with b := s.block.b.set i v }) rest) ∧
      step (s.withWrite (0x3000 + 8 * i) v rest) = .next (s.setBlock s.block rest)) ∧
    (∀ off, off = 0x0 ∨ off = 0x10 ∨ off = 0x28 ∨ off = 0x30 →
      step (s.withWrite off v rest) = .next (s.setBlock s.block rest)) ∧
    (∀ off, 0x38 ≤ off → off < 0x4000 → off % 8 = 0 →
      (∀ i, i < s.cfg.n → off ≠ 0x1000 + 8 * i ∧ off ≠ 0x2000 + 8 * i ∧ off ≠ 0x3000 + 8 * i) →
      step (s.withWrite off v rest) = .next (s.setBlock s.block rest))

/-- An operand write while BUSY = 0 reads back, and every other offset of the window reads as before (R32, R33). -/
def Obligations.OperandWriteReadsBack : Prop :=
  ∀ (s : State) (rest : List Event) (v : Word) (off : Nat), s.Inv → s.block.busy = false →
    (off = 0x20 ∨ (∃ i, i < s.cfg.n ∧ (off = 0x1000 + 8 * i ∨ off = 0x2000 + 8 * i))) →
    ∃ t, step (s.withWrite off v rest) = .next t ∧ windowRead t.cfg t.block off = v ∧
      ∀ off', off' ≠ off → windowRead t.cfg t.block off' = windowRead s.cfg s.block off'

/-- R29: an access to the window is admitted only with 8 bytes at a multiple of 8; the model refuses any other, and
answers every admitted one. -/
def Obligations.OnlyAlignedWholeRegisterAccesses : Prop :=
  ∀ (s : State) (rest : List Event) (x : Access), s.cfg.base ≤ x.addr → x.addr < s.cfg.base + 0x4000 →
    ((x.size ≠ 8 ∨ (x.addr - s.cfg.base) % 8 ≠ 0) → step (s.withAccess x rest) = .refused .busError) ∧
    (x.size = 8 → (x.addr - s.cfg.base) % 8 = 0 → ∃ t, step (s.withAccess x rest) = .next t)

/-- Accesses outside the window are not the block's (R28; what the platform does with them is not modelled, log 7). -/
def Obligations.AccessesOutsideTheWindowAreNotTheBlocks : Prop :=
  ∀ (s : State) (rest : List Event) (x : Access),
    (s.cfg.base + 0x4000 ≤ x.addr ∨ x.addr + max x.size 1 ≤ s.cfg.base) →
    step (s.withAccess x rest) = .next { s with order := rest }

/-- R31 with R30: limb i of A, B and R sits at its base + 8·i, and the window's bytes for A, B and R are the
little-endian byte images of their values. -/
def Obligations.WindowIsTheLittleEndianImage : Prop :=
  ∀ (s : State) (j : Nat), s.Inv → j < 8 * s.cfg.n →
    windowRead s.cfg s.block (0x1000 + 8 * (j / 8)) = s.block.a.getD (j / 8) 0 ∧
    windowRead s.cfg s.block (0x2000 + 8 * (j / 8)) = s.block.b.getD (j / 8) 0 ∧
    windowRead s.cfg s.block (0x3000 + 8 * (j / 8)) = s.block.r.getD (j / 8) 0 ∧
    (windowByte s.cfg s.block (0x1000 + j)).toNat = val s.block.a / 256 ^ j % 256 ∧
    (windowByte s.cfg s.block (0x2000 + j)).toNat = val s.block.b / 256 ^ j % 256 ∧
    (windowByte s.cfg s.block (0x3000 + j)).toNat = val s.block.r / 256 ^ j % 256

/-- The bits of STATUS (R14) in every state, and the values it reads in the four forms of R15. -/
def Obligations.StatusWordBits : Prop :=
  ∀ b : Block,
    (statusWord b).getLsbD 0 = b.busy ∧ (statusWord b).getLsbD 1 = b.done ∧ (statusWord b).getLsbD 2 = b.fault ∧
    (statusWord b).getLsbD 3 = false ∧ (statusWord b).extractLsb' 4 4 = b.fcode ∧
    (∀ j, 8 ≤ j → (statusWord b).getLsbD j = false) ∧
    (b.StatusForm → statusWord b = 0x0 ∨ statusWord b = 0x1 ∨ statusWord b = 0x2 ∨ statusWord b = 0x14 ∨
      statusWord b = 0x24 ∨ statusWord b = 0x34 ∨ statusWord b = 0x44)

/-- R17. -/
def Obligations.ParamReadsTheConfiguration : Prop :=
  ∀ (s : State) (rest : List Event) (v : Word),
    (windowRead s.cfg s.block 0x0).extractLsb' 0 16 = BitVec.ofNat 16 s.cfg.n ∧
    (windowRead s.cfg s.block 0x0).extractLsb' 16 8 = 64 ∧ (windowRead s.cfg s.block 0x0).extractLsb' 24 8 = 1 ∧
    (windowRead s.cfg s.block 0x0).extractLsb' 32 32 = 0 ∧
    (s.cfg.n = 4 → windowRead s.cfg s.block 0x0 = 0x0000000001400004#64) ∧
    step (s.withWrite 0x0 v rest) = .next (s.setBlock s.block rest)

/-! ### The order of turns -/

/-- R21, R41: while a command stays in flight, no turn changes its operands, INFLIGHT or R. -/
def Obligations.OperandsAreFrozenWhileBusy : Prop :=
  ∀ s t : State, s.Inv → s.block.busy = true → step s = .next t → t.block.busy = true → t.block = s.block

/-- R12: R changes only in a completion, which is the second step of the command in flight, or by a reset. -/
def Obligations.OnlyCompletionAndResetWriteR : Prop :=
  ∀ s t : State, s.Inv → step s = .next t → t.block.r ≠ s.block.r →
    t.block = Block.reset s.cfg ∨
    (∃ f, s.block.inflight = some f ∧ t.block = s.block.completed t.block.r ∧ t.block.r.length = s.cfg.n ∧
      val t.block.r = commandValue s.cfg s.block f.instr)

/-- R58, R102: an accepted command that nothing abandons completes, after at most as many steps as turns are laid down
and one more, wherever its completion stands among them, and R is the value of its operands at acceptance. No turn may
abandon it while it is in flight; a host that polls STATUS, branches or writes elsewhere abandons nothing. The one step
more, the datapath's when no turns are left, is the model's way to hold the fairness of R58 (log 2). -/
def Obligations.AcceptedCommandsComplete : Prop :=
  ∀ (s : State) (f : Inflight), s.Inv → s.block.inflight = some f →
    (∀ (j : Nat) (u : State), j ≤ s.order.length → Host.Core.run Sys2Proof.core j s = .next u →
      u.block.inflight = some f → u.turnHarmless = true) →
    ∃ (k : Nat) (t : State), k ≤ s.order.length + 1 ∧ Host.Core.run Sys2Proof.core k s = .next t ∧
      t.block = s.block.completed t.block.r ∧ t.block.r.length = s.cfg.n ∧
      val t.block.r = commandValue s.cfg s.block f.instr

/-- R97, R37: a write to an operand or to CMD while a command is in flight has two outcomes, by its place before or after
the completion (program P4 of 95_test_vectors.md). After it, an operand takes the value, and a CMD word is issued. -/
def Obligations.BusyHazardBothOrders : Prop :=
  ∀ (s : State) (f : Inflight) (off : Nat) (v : Word) (rest : List Event), s.Inv → s.block.inflight = some f →
    (off = 0x18 ∨ off = 0x20 ∨ (∃ i, i < s.cfg.n ∧ (off = 0x1000 + 8 * i ∨ off = 0x2000 + 8 * i))) →
    (∃ t u, step (s.withWrite off v (.complete :: rest)) = .next t ∧ step t = .next u ∧
      u.block = s.block.faulted 4 (BitVec.ofNat 64 off) v) ∧
    (∃ (y : List Word) (t u : State),
      step { s with order := .complete :: .access (.write (s.cfg.base + off) 8 v) :: rest } = .next t ∧
      t.block = s.block.completed y ∧ y.length = s.cfg.n ∧ val y = commandValue s.cfg s.block f.instr ∧
      step t = .next u ∧ u.block.r = y ∧
      (off = 0x18 → issue v (s.setBlock (s.block.completed y) rest) = .next u) ∧
      (off = 0x20 → u.block = { s.block.completed y with scalar := v }) ∧
      (∀ i, i < s.cfg.n →
        (off = 0x1000 + 8 * i → u.block = { s.block.completed y with a := s.block.a.set i v }) ∧
        (off = 0x2000 + 8 * i → u.block = { s.block.completed y with b := s.block.b.set i v })))

/-! ### The host agent (R59, R60) -/

/-- The host statements, one clause each, at the host's turn. `wr` and `rd` make the access R59 writes; past the last
statement and at `halt` nothing happens. The model's own are: a `wr` of a variable and its low 64 bits (log 10); and the
end past the last statement, the first of two equal labels, and a variable that is 0 until written (log 9). -/
def Obligations.HostStatements : Prop :=
  ∀ (s : State) (rest : List Event) (turn : Host.Outcome State Fault Refusal),
    turn = step { s with order := .host :: rest } →
    (∀ x v, s.host.program[s.host.pos]? = some (.wr x v) → x.inMap = true →
      turn = step ((advance s).withAccess (.write (s.cfg.base + x.offset) 8 (sourceValue v s)) rest)) ∧
    (∀ x t, s.host.program[s.host.pos]? = some (.rd x t) → x.inMap = true →
      turn = .next { s with
        order := rest, lastRead := some (windowRead s.cfg s.block x.offset),
        host := ⟨s.host.program, s.host.pos + 1,
          varSet s.host.vars t (windowRead s.cfg s.block x.offset).toNat⟩ }) ∧
    (∀ l, s.host.program[s.host.pos]? = some (.label l) →
      turn = .next { s with order := rest, host := { s.host with pos := s.host.pos + 1 } }) ∧
    (∀ t imm l p, s.host.program[s.host.pos]? = some (.bnz t imm l) → findLabelFrom s.host.program l 0 = some p →
      turn = .next { s with order := rest, host := { s.host with
        pos := if varGet s.host.vars t &&& imm.toNat ≠ 0 then p else s.host.pos + 1 } }) ∧
    (∀ t imm l p, s.host.program[s.host.pos]? = some (.bz t imm l) → findLabelFrom s.host.program l 0 = some p →
      turn = .next { s with order := rest, host := { s.host with
        pos := if varGet s.host.vars t &&& imm.toNat = 0 then p else s.host.pos + 1 } }) ∧
    (s.host.program[s.host.pos]? = some .halt ∨ s.host.program[s.host.pos]? = none →
      turn = .next { s with order := rest })

/-- `lda v` and `ldb v` (R60): N host turns load the N limbs of v, in any state with BUSY = 0. -/
def Obligations.LdaAndLdbLoadTheValue : Prop :=
  ∀ (s : State) (v : Nat) (before after : List Stmt) (rest : List Event), s.Inv → s.block.busy = false →
    s.host.pos = before.length → s.order = List.replicate s.cfg.n .host ++ rest →
    (s.host.program = before ++ ldaStmts s.cfg.n v ++ after →
      Host.Core.run Sys2Proof.core s.cfg.n s = .next { s with
        order := rest, host := { s.host with pos := s.host.pos + s.cfg.n },
        block := { s.block with a := pack v s.cfg.n } }) ∧
    (s.host.program = before ++ ldbStmts s.cfg.n v ++ after →
      Host.Core.run Sys2Proof.core s.cfg.n s = .next { s with
        order := rest, host := { s.host with pos := s.host.pos + s.cfg.n },
        block := { s.block with b := pack v s.cfg.n } })

/-- `rdr -> t` (R60): N + 1 host turns put val(R, N) into the host variable t and change nothing in the block. That the
sum is a host statement, one turn of its own, and that a variable holds a natural number of any size, are the model's
(DESIGN CHOICE, log 9). -/
def Obligations.RdrReadsTheValueOfR : Prop :=
  ∀ (s : State) (t t0 : Nat) (before after : List Stmt) (rest : List Event), s.Inv →
    s.host.pos = before.length → s.order = List.replicate (s.cfg.n + 1) .host ++ rest →
    s.host.program = before ++ rdrStmts s.cfg.n t t0 ++ after →
    ∃ u, Host.Core.run Sys2Proof.core (s.cfg.n + 1) s = .next u ∧ varGet u.host.vars t = val s.block.r ∧
      u.block = s.block ∧ u.host.pos = s.host.pos + (s.cfg.n + 1) ∧ u.order = rest

/-- `wait` (R60) under R102's fairness, with R97's poll: the host polls any number k of turns before the completion, and
after it leaves the loop within four turns, with DONE = 1 and BUSY = FAULT = 0 in its variable and the result in R. -/
def Obligations.WaitEndsAfterTheCompletion : Prop :=
  ∀ (s : State) (f : Inflight) (k lw v : Nat) (rest : List Event), s.Inv → s.block.inflight = some f →
    s.order = List.replicate k .host ++ .complete :: (List.replicate 4 .host ++ rest) →
    (s.host.program.drop s.host.pos).take 3 = waitStmts lw v →
    findLabelFrom s.host.program lw 0 = some s.host.pos →
    ∃ (m : Nat) (t : State), m ≤ 4 ∧ Host.Core.run Sys2Proof.core (k + 1 + m) s = .next t ∧
      t.host.pos = s.host.pos + 3 ∧ varGet t.host.vars v = 0x2 ∧ t.block = s.block.completed t.block.r ∧
      t.block.r.length = s.cfg.n ∧ val t.block.r = commandValue s.cfg s.block f.instr

/-- Every `wait` and every `run c` (R60) of an assembled source, for any lines before and after it and any command
statement c, a raw word among them: its own expansion stands between those of the lines before and after it, its label
is fresh, and so is its variable where the source names none (that it may name one is log 18). -/
def Obligations.AssembledWaitsAreFresh : Prop :=
  ∀ (n : Nat) (before after : List Line) (named : Option Nat) (c : Command) (p : List Stmt),
    (assembleProgram n (before ++ .wait named :: after) = some p →
      HasFreshWait n before (.wait named) after named [] p) ∧
    (assembleProgram n (before ++ .run c named :: after) = some p →
      ∃ st, c.stmt? = some st ∧ HasFreshWait n before (.run c named) after named [st] p)
end

