-- ==== Sys2Proof/Laws/Limbs.lean ====
section
/-!
SUPPORT. The laws of limb vectors (R7): lengths, the bound of `val`, and that `pack` and `val` invert each other.
-/

namespace Sys2Proof.Machine

@[simp] theorem val_nil : val [] = 0 := rfl
@[simp] theorem val_cons (x : Word) (xs : List Word) : val (x :: xs) = x.toNat + 2 ^ 64 * val xs := rfl
@[simp] theorem pack_zero_length (v : Nat) : pack v 0 = [] := rfl
@[simp] theorem pack_succ (v n : Nat) : pack v (n + 1) = BitVec.ofNat 64 v :: pack (v / 2 ^ 64) n := rfl

theorem length_pack (v n : Nat) : (pack v n).length = n := by
  induction n generalizing v with
  | zero => rfl
  | succ n ih => simp [ih]

@[simp] theorem length_zeros (n : Nat) : (zeros n).length = n := by simp [zeros]

theorem length_limbs (n : Nat) (xs : List Word) : (limbs n xs).length = n := by
  induction n generalizing xs with
  | zero => simp [limbs]
  | succ n ih => cases xs <;> simp [limbs, ih]

/-- A register of n limbs is its own operand. -/
theorem limbs_eq_self {n : Nat} {xs : List Word} (h : xs.length = n) : limbs n xs = xs := by
  induction n generalizing xs with
  | zero => simpa [limbs] using (List.eq_nil_of_length_eq_zero h).symm
  | succ n ih =>
    cases xs with
    | nil => simp at h
    | cons x xs => simp [limbs, ih (by simpa using h)]

theorem val_zeros (n : Nat) : val (zeros n) = 0 := by
  induction n with
  | zero => rfl
  | succ n ih => simpa [zeros, List.replicate_succ] using ih

theorem limbs_nil (n : Nat) : limbs n [] = zeros n := by
  induction n with
  | zero => rfl
  | succ n ih => simp [limbs, zeros, List.replicate_succ, ih]

/-- Missing high limbs count 0 (R66). -/
theorem val_limbs {n : Nat} {xs : List Word} (h : xs.length ≤ n) : val (limbs n xs) = val xs := by
  induction n generalizing xs with
  | zero => simp [limbs, List.eq_nil_of_length_eq_zero (Nat.le_zero.mp h)]
  | succ n ih =>
    cases xs with
    | nil => rw [limbs_nil, val_zeros]; rfl
    | cons x xs => simp [limbs, ih (by simpa using h)]

theorem pow_limbs_succ (n : Nat) : (2 : Nat) ^ (64 * (n + 1)) = 2 ^ 64 * 2 ^ (64 * n) := by
  rw [← pow_add]; congr 1; omega

theorem val_lt (xs : List Word) : val xs < 2 ^ (64 * xs.length) := by
  induction xs with
  | nil => simp
  | cons x xs ih =>
    have hx := x.isLt
    rw [val_cons, List.length_cons, pow_limbs_succ]
    calc x.toNat + 2 ^ 64 * val xs < 2 ^ 64 + 2 ^ 64 * val xs := by omega
      _ = 2 ^ 64 * (val xs + 1) := by ring
      _ ≤ 2 ^ 64 * 2 ^ (64 * xs.length) := Nat.mul_le_mul_left _ ih

/-- A limb vector is determined by its length and its value. -/
theorem pack_val (xs : List Word) : pack (val xs) xs.length = xs := by
  induction xs with
  | nil => rfl
  | cons x xs ih =>
    have h1 : BitVec.ofNat 64 (x.toNat + 2 ^ 64 * val xs) = x := by
      apply BitVec.eq_of_toNat_eq
      rw [BitVec.toNat_ofNat]
      have hx := x.isLt
      omega
    have h2 : (x.toNat + 2 ^ 64 * val xs) / 2 ^ 64 = val xs := by
      have hx := x.isLt
      omega
    rw [List.length_cons, pack_succ, val_cons, h1, h2, ih]

/-- The step of arithmetic modulo one more limb. -/
theorem mod_limbs_succ (v n : Nat) :
    v % 2 ^ (64 * (n + 1)) = v % 2 ^ 64 + 2 ^ 64 * (v / 2 ^ 64 % 2 ^ (64 * n)) := by
  rw [pow_limbs_succ, Nat.mod_mul]

end Sys2Proof.Machine
end

