-- ==== Sys2Proof/Laws/Arithmetic.lean ====
section
/-!
SUPPORT. The value each arithmetic operation computes: the limb step and the ripple (R64, R65), the rippling AddAt of
R68, one 3:2 carry-save adder (R67), and one masked limb (R70).
-/

namespace Sys2Proof.Machine

theorem val_append (xs ys : List Word) : val (xs ++ ys) = val xs + 2 ^ (64 * xs.length) * val ys := by
  induction xs with
  | nil => simp
  | cons x xs ih => simp only [List.cons_append, val_cons, ih, List.length_cons, pow_limbs_succ]; ring

/-- Limb vectors of one length are told apart by their values. -/
theorem val_inj {xs ys : List Word} (h : xs.length = ys.length) (hv : val xs = val ys) : xs = ys := by
  rw [← pack_val xs, ← pack_val ys, h, hv]

/-- Nothing is lost in one limb step (R64). -/
theorem addStep_value (x y : Word) (c : Bool) :
    (addStep x y c).1.toNat + 2 ^ 64 * (addStep x y c).2.toNat = x.toNat + y.toNat + c.toNat := by
  have hx := x.isLt
  have hy := y.isLt
  have hc : c.toNat ≤ 1 := by cases c <;> decide
  simp only [addStep, BitVec.toNat_ofNat]
  by_cases h1 : 2 ^ 64 ≤ x.toNat + y.toNat <;>
    by_cases h2 : 2 ^ 64 ≤ (x.toNat + y.toNat) % 2 ^ 64 + c.toNat <;>
    simp only [h1, h2, decide_true, decide_false, Bool.or_true, Bool.or_false, Bool.toNat_true, Bool.toNat_false] <;>
    omega

/-- The ripple adds modulo the capacity of its operands (R65). -/
theorem val_ripple (xs ys : List Word) (c : Bool) (h : xs.length = ys.length) :
    val (ripple xs ys c) = (val xs + val ys + c.toNat) % 2 ^ (64 * xs.length) := by
  induction xs generalizing ys c with
  | nil => simp [ripple, Nat.mod_one]
  | cons x xs ih =>
    cases ys with
    | nil => simp at h
    | cons y ys =>
      have h1 := addStep_value x y c
      have hlt := (addStep x y c).1.isLt
      simp only [ripple, val_cons, List.length_cons]
      rw [ih ys _ (by simpa using h), mod_limbs_succ]
      congr 1
      · omega
      · congr 2; omega

/-- AddAt adds at its limb, modulo the capacity of the accumulator (R68). -/
theorem val_addAt (acc : List Word) (q v : Nat) :
    val (addAt acc q v) = (val acc + v * 2 ^ (64 * q)) % 2 ^ (64 * acc.length) ∧
    (addAt acc q v).length = acc.length := by
  induction acc generalizing q v with
  | nil => simp [addAt, Nat.mod_one]
  | cons x xs ih =>
    have hx := x.isLt
    cases q with
    | succ q =>
      obtain ⟨i1, i2⟩ := ih q v
      simp only [addAt, val_cons, List.length_cons, i1, i2, and_true]
      have e : x.toNat + 2 ^ 64 * val xs + v * (2 ^ 64 * 2 ^ (64 * q)) =
          x.toNat + 2 ^ 64 * (val xs + v * 2 ^ (64 * q)) := by ring
      rw [mod_limbs_succ, pow_limbs_succ, e]
      congr 2
      · omega
      · congr 1; omega
    | zero =>
      by_cases hv : v = 0
      · subst hv
        have hlt := val_lt (x :: xs)
        simp only [addAt, if_true, Nat.zero_mul, Nat.add_zero, Nat.mod_eq_of_lt hlt, and_self]
      · obtain ⟨i1, i2⟩ := ih 0 ((x.toNat + v) / 2 ^ 64)
        simp only [addAt, if_neg hv, val_cons, List.length_cons, i1, i2, and_true, BitVec.toNat_ofNat, mod_limbs_succ,
          Nat.mul_zero, pow_zero, Nat.mul_one]
        congr 1
        · omega
        · congr 2; omega

/-- The two rows of a 3:2 adder have the sum of its three (R67). -/
theorem csa_value (x y z : Nat) : csaSum x y z + csaCarry x y z = x + y + z := by
  unfold csaSum csaCarry
  suffices H : ∀ n x y z : Nat, x ≤ n → y ≤ n → z ≤ n →
      (x ^^^ y ^^^ z) + 2 * ((x &&& y) ||| (x &&& z) ||| (y &&& z)) = x + y + z from
    H (x + y + z) x y z (by omega) (by omega) (by omega)
  intro n
  induction n with
  | zero =>
    intro x y z hx hy hz
    obtain rfl : x = 0 := by omega
    obtain rfl : y = 0 := by omega
    obtain rfl : z = 0 := by omega
    rfl
  | succ n ih =>
    intro x y z hx hy hz
    have h := ih (x / 2) (y / 2) (z / 2) (by omega) (by omega) (by omega)
    have d1 : (x ^^^ y ^^^ z) / 2 = x / 2 ^^^ y / 2 ^^^ z / 2 := by simp [Nat.xor_div_two]
    have d2 : ((x &&& y) ||| (x &&& z) ||| (y &&& z)) / 2 =
        (x / 2 &&& y / 2) ||| (x / 2 &&& z / 2) ||| (y / 2 &&& z / 2) := by
      simp [Nat.or_div_two, Nat.and_div_two]
    have m1 : (x ^^^ y ^^^ z) % 2 = (x % 2 ^^^ y % 2 ^^^ z % 2) % 2 := by
      have h1 := Nat.xor_mod_two_pow (a := x ^^^ y) (b := z) (n := 1)
      have h2 := Nat.xor_mod_two_pow (a := x) (b := y) (n := 1)
      simp only [pow_one] at *
      rw [h1, h2]
      rcases Nat.mod_two_eq_zero_or_one x with a | a <;> rcases Nat.mod_two_eq_zero_or_one y with b | b <;>
        rcases Nat.mod_two_eq_zero_or_one z with c | c <;> simp [a, b, c]
    have m2 : ((x &&& y) ||| (x &&& z) ||| (y &&& z)) % 2 =
        ((x % 2 &&& y % 2) ||| (x % 2 &&& z % 2) ||| (y % 2 &&& z % 2)) % 2 := by
      have h1 := Nat.or_mod_two_pow (a := (x &&& y) ||| (x &&& z)) (b := y &&& z) (n := 1)
      have h2 := Nat.or_mod_two_pow (a := x &&& y) (b := x &&& z) (n := 1)
      have h3 := Nat.and_mod_two_pow (a := x) (b := y) (n := 1)
      have h4 := Nat.and_mod_two_pow (a := x) (b := z) (n := 1)
      have h5 := Nat.and_mod_two_pow (a := y) (b := z) (n := 1)
      simp only [pow_one] at *
      rw [h1, h2, h3, h4, h5]
      rcases Nat.mod_two_eq_zero_or_one x with a | a <;> rcases Nat.mod_two_eq_zero_or_one y with b | b <;>
        rcases Nat.mod_two_eq_zero_or_one z with c | c <;> simp [a, b, c]
    generalize (x ^^^ y ^^^ z) = S at *
    generalize ((x &&& y) ||| (x &&& z) ||| (y &&& z)) = T at *
    rw [← d1, ← d2] at h
    rcases Nat.mod_two_eq_zero_or_one x with a | a <;> rcases Nat.mod_two_eq_zero_or_one y with b | b <;>
      rcases Nat.mod_two_eq_zero_or_one z with c | c <;> rw [a, b, c] at m1 m2 <;> norm_num at m1 m2 <;> omega

/-- One masked limb (R70): its low k − 64·i bits, all of it where there are 64 or more. -/
theorem maskLimb_value (k i : Nat) (y : Word) : (maskLimb k i y).toNat = y.toNat % 2 ^ (k - 64 * i) := by
  unfold maskLimb nlimbs
  split
  · rw [show k - 64 * i = 0 by omega]; simp [Nat.mod_one]
  · split
    · have hl : 2 ^ (k - 64 * i) ≤ 2 ^ 63 := Nat.pow_le_pow_right (by decide) (by omega)
      rw [show k % 64 = k - 64 * i by omega, BitVec.toNat_and, BitVec.toNat_ofNat, Nat.mod_eq_of_lt (by omega),
        Nat.and_two_pow_sub_one_eq_mod]
    · exact (Nat.mod_eq_of_lt (lt_of_lt_of_le y.isLt (Nat.pow_le_pow_right (by decide) (by omega)))).symm

end Sys2Proof.Machine
end

