-- ==== Sys2Proof/Laws/State.lean ====
section
/-!
SUPPORT. One lemma per field per update: what each shared operation leaves in each field of the state.
-/

namespace Sys2Proof.Machine

section blocks
variable (b : Block) (y : List Word) (c : Config) (i : Instr) (code : BitVec 4) (off data : Word)

@[simp] theorem Block.completed_a : (b.completed y).a = b.a := rfl
@[simp] theorem Block.completed_b : (b.completed y).b = b.b := rfl
@[simp] theorem Block.completed_r : (b.completed y).r = y := rfl
@[simp] theorem Block.completed_scalar : (b.completed y).scalar = b.scalar := rfl
@[simp] theorem Block.completed_busy : (b.completed y).busy = false := rfl
@[simp] theorem Block.completed_done : (b.completed y).done = true := rfl
@[simp] theorem Block.completed_fault : (b.completed y).fault = b.fault := rfl
@[simp] theorem Block.completed_fcode : (b.completed y).fcode = b.fcode := rfl
@[simp] theorem Block.completed_faddr : (b.completed y).faddr = b.faddr := rfl
@[simp] theorem Block.completed_fdata : (b.completed y).fdata = b.fdata := rfl
@[simp] theorem Block.completed_inflight : (b.completed y).inflight = none := rfl

@[simp] theorem Block.accepted_a : (b.accepted c i).a = b.a := rfl
@[simp] theorem Block.accepted_b : (b.accepted c i).b = b.b := rfl
@[simp] theorem Block.accepted_r : (b.accepted c i).r = b.r := rfl
@[simp] theorem Block.accepted_scalar : (b.accepted c i).scalar = b.scalar := rfl
@[simp] theorem Block.accepted_busy : (b.accepted c i).busy = true := rfl
@[simp] theorem Block.accepted_done : (b.accepted c i).done = false := rfl
@[simp] theorem Block.accepted_fault : (b.accepted c i).fault = b.fault := rfl
@[simp] theorem Block.accepted_fcode : (b.accepted c i).fcode = b.fcode := rfl
@[simp] theorem Block.accepted_faddr : (b.accepted c i).faddr = b.faddr := rfl
@[simp] theorem Block.accepted_fdata : (b.accepted c i).fdata = b.fdata := rfl
@[simp] theorem Block.accepted_inflight :
    (b.accepted c i).inflight = some ⟨i.op, i.limbCount c.n, i.bitWidth c.n⟩ := rfl

@[simp] theorem Block.faulted_a : (b.faulted code off data).a = b.a := rfl
@[simp] theorem Block.faulted_b : (b.faulted code off data).b = b.b := rfl
@[simp] theorem Block.faulted_r : (b.faulted code off data).r = b.r := rfl
@[simp] theorem Block.faulted_scalar : (b.faulted code off data).scalar = b.scalar := rfl
@[simp] theorem Block.faulted_busy : (b.faulted code off data).busy = false := rfl
@[simp] theorem Block.faulted_done : (b.faulted code off data).done = false := rfl
@[simp] theorem Block.faulted_fault : (b.faulted code off data).fault = true := rfl
@[simp] theorem Block.faulted_fcode : (b.faulted code off data).fcode = code := rfl
@[simp] theorem Block.faulted_faddr : (b.faulted code off data).faddr = off := rfl
@[simp] theorem Block.faulted_fdata : (b.faulted code off data).fdata = data := rfl
@[simp] theorem Block.faulted_inflight : (b.faulted code off data).inflight = none := rfl

@[simp] theorem Block.reset_a : (Block.reset c).a = List.replicate c.n 0 := rfl
@[simp] theorem Block.reset_b : (Block.reset c).b = List.replicate c.n 0 := rfl
@[simp] theorem Block.reset_r : (Block.reset c).r = List.replicate c.n 0 := rfl
@[simp] theorem Block.reset_scalar : (Block.reset c).scalar = 0 := rfl
@[simp] theorem Block.reset_busy : (Block.reset c).busy = false := rfl
@[simp] theorem Block.reset_done : (Block.reset c).done = false := rfl
@[simp] theorem Block.reset_fault : (Block.reset c).fault = false := rfl
@[simp] theorem Block.reset_fcode : (Block.reset c).fcode = 0 := rfl
@[simp] theorem Block.reset_faddr : (Block.reset c).faddr = 0 := rfl
@[simp] theorem Block.reset_fdata : (Block.reset c).fdata = 0 := rfl
@[simp] theorem Block.reset_inflight : (Block.reset c).inflight = none := rfl
end blocks

section updates
variable (s : State) (y : List Word) (i : Instr) (code : FaultCode) (off t v : Nat) (data : Word)

@[simp] theorem complete_cfg : (complete y s).cfg = s.cfg := rfl
@[simp] theorem complete_block : (complete y s).block = s.block.completed y := rfl
@[simp] theorem complete_host : (complete y s).host = s.host := rfl
@[simp] theorem complete_order : (complete y s).order = s.order := rfl
@[simp] theorem complete_lastRead : (complete y s).lastRead = s.lastRead := rfl

@[simp] theorem accept_cfg : (accept i s).cfg = s.cfg := rfl
@[simp] theorem accept_block : (accept i s).block = s.block.accepted s.cfg i := rfl
@[simp] theorem accept_host : (accept i s).host = s.host := rfl
@[simp] theorem accept_order : (accept i s).order = s.order := rfl
@[simp] theorem accept_lastRead : (accept i s).lastRead = s.lastRead := rfl

@[simp] theorem raiseFault_cfg : (raiseFault code off data s).cfg = s.cfg := rfl
@[simp] theorem raiseFault_block :
    (raiseFault code off data s).block = s.block.faulted code.code (BitVec.ofNat 64 off) data := rfl
@[simp] theorem raiseFault_host : (raiseFault code off data s).host = s.host := rfl
@[simp] theorem raiseFault_order : (raiseFault code off data s).order = s.order := rfl
@[simp] theorem raiseFault_lastRead : (raiseFault code off data s).lastRead = s.lastRead := rfl

@[simp] theorem resetBlock_cfg : (resetBlock s).cfg = s.cfg := rfl
@[simp] theorem resetBlock_block : (resetBlock s).block = Block.reset s.cfg := rfl
@[simp] theorem resetBlock_host : (resetBlock s).host = s.host := rfl
@[simp] theorem resetBlock_order : (resetBlock s).order = s.order := rfl
@[simp] theorem resetBlock_lastRead : (resetBlock s).lastRead = s.lastRead := rfl

@[simp] theorem softReset_eq : softReset s = resetBlock s := rfl

@[simp] theorem advance_cfg : (advance s).cfg = s.cfg := rfl
@[simp] theorem advance_block : (advance s).block = s.block := rfl
@[simp] theorem advance_program : (advance s).host.program = s.host.program := rfl
@[simp] theorem advance_pos : (advance s).host.pos = s.host.pos + 1 := rfl
@[simp] theorem advance_vars : (advance s).host.vars = s.host.vars := rfl
@[simp] theorem advance_order : (advance s).order = s.order := rfl
@[simp] theorem advance_lastRead : (advance s).lastRead = s.lastRead := rfl

@[simp] theorem setVar_cfg : (setVar t v s).cfg = s.cfg := rfl
@[simp] theorem setVar_block : (setVar t v s).block = s.block := rfl
@[simp] theorem setVar_program : (setVar t v s).host.program = s.host.program := rfl
@[simp] theorem setVar_pos : (setVar t v s).host.pos = s.host.pos := rfl
@[simp] theorem setVar_vars : (setVar t v s).host.vars = varSet s.host.vars t v := rfl
@[simp] theorem setVar_order : (setVar t v s).order = s.order := rfl
@[simp] theorem setVar_lastRead : (setVar t v s).lastRead = s.lastRead := rfl

variable (b : Block) (rest : List Event) (x : Access)

@[simp] theorem State.setBlock_cfg : (s.setBlock b rest).cfg = s.cfg := rfl
@[simp] theorem State.setBlock_block : (s.setBlock b rest).block = b := rfl
@[simp] theorem State.setBlock_host : (s.setBlock b rest).host = s.host := rfl
@[simp] theorem State.setBlock_order : (s.setBlock b rest).order = rest := rfl
@[simp] theorem State.setBlock_lastRead : (s.setBlock b rest).lastRead = s.lastRead := rfl

@[simp] theorem State.withAccess_cfg : (s.withAccess x rest).cfg = s.cfg := rfl
@[simp] theorem State.withAccess_block : (s.withAccess x rest).block = s.block := rfl
@[simp] theorem State.withAccess_host : (s.withAccess x rest).host = s.host := rfl
@[simp] theorem State.withAccess_order : (s.withAccess x rest).order = .access x :: rest := rfl
@[simp] theorem State.withAccess_lastRead : (s.withAccess x rest).lastRead = s.lastRead := rfl
end updates

end Sys2Proof.Machine
end

