-- ==== Sys2Proof/Laws/Ops.lean ====
section
/-!
SUPPORT. What the shared operations can do: one spec lemma each for the check of a command in flight and for
`runCommand`, which the laws about `exec` cite.
-/

namespace Sys2Proof.Machine

/-- INFLIGHT remembers the command it was made of. -/
@[simp] theorem Inflight.instr_mk (i : Instr) (n : Nat) :
    Inflight.instr ⟨i.op, i.limbCount n, i.bitWidth n⟩ = i := by
  cases i <;> rfl

@[simp] theorem Inflight.ofInstr_eq (c : Config) (i : Instr) :
    Inflight.ofInstr c i = ⟨i.op, i.limbCount c.n, i.bitWidth c.n⟩ := rfl

theorem inFlight_iff (i : Instr) (s : State) :
    inFlight i s = true ↔ s.block.busy = true ∧ ∃ f, s.block.inflight = some f ∧ f.instr = i := by
  simp [inFlight]

theorem inFlight_of_running {i : Instr} {s : State} (h : s.Running i) : inFlight i s = true :=
  (inFlight_iff i s).mpr ⟨h.1, _, h.2, Inflight.instr_mk i _⟩

theorem not_inFlight_of_idle {s : State} (h : s.block.busy = false) (i : Instr) : inFlight i s = false := by
  simp [inFlight, h]

section
variable {i : Instr} {check : Option FaultCode} {y : List Word} {s : State}

theorem runCommand_running (h : s.Running i) : runCommand i check y s = .next (complete y s) := by
  simp [runCommand, inFlight_of_running h]

theorem runCommand_inFlight (h : inFlight i s = true) : runCommand i check y s = .next (complete y s) := by
  simp [runCommand, h]

theorem runCommand_accepts (h : s.Ready) : runCommand i none y s = .next (accept i s) := by
  simp [runCommand, not_inFlight_of_idle h.1, h.1, h.2]

theorem runCommand_violates {code : FaultCode} (h : s.Ready) :
    runCommand i (some code) y s = .next (raiseFault code cmdOffset (encode i) s) := by
  simp [runCommand, not_inFlight_of_idle h.1, h.1, h.2]

theorem runCommand_faulted (hf : s.block.fault = true) (hb : s.block.busy = false) :
    runCommand i check y s = .next s := by
  simp [runCommand, not_inFlight_of_idle hb, hf]

/-- Everything a command's step can do: complete, be ignored, fault, or be accepted. It always answers a next state. -/
theorem runCommand_cases (i : Instr) (check : Option FaultCode) (y : List Word) (s : State) :
    ∃ t, runCommand i check y s = .next t ∧
      ((inFlight i s = true ∧ t = complete y s) ∨ (s.block.fault = true ∧ t = s) ∨
       (∃ code, t = raiseFault code cmdOffset (encode i) s) ∨ (s.Ready ∧ check = none ∧ t = accept i s)) := by
  unfold runCommand State.Ready
  cases h : inFlight i s <;> cases hf : s.block.fault <;> cases hb : s.block.busy <;> cases check <;> simp <;>
    exact ⟨_, rfl⟩
end

/-! ### `exec` as one `runCommand` -/

/-- The check of a command at Issue (R55). -/
def commandCheck (s : State) : Instr → Option FaultCode
  | .addm m => sizeCheck m s
  | .mulm m => sizeCheck m s
  | .addmod k => bitsizeCheck k s
  | .mulmod k => bitsizeCheck k s
  | .zero | .fromsc | .add | .mul => none

/-- The limbs a command computes (R57). -/
def commandLimbs (s : State) : Instr → List Word
  | .zero => zeros s.cfg.n
  | .fromsc => fromScalar s.cfg.n (operandScalar s)
  | .add => addLimbs (operandA s) (operandB s)
  | .addm m => addLimbs (operandA s) (operandBLow m s)
  | .mul => mulLimbs s.cfg.n (operandA s) (operandB s)
  | .mulm m => mulLimbs s.cfg.n (operandA s) (operandBLow m s)
  | .addmod k => maskLimbs k (addLimbs (operandA s) (operandB s))
  | .mulmod k => mulmodLimbs s.cfg.n k (operandA s) (operandB s)

theorem exec_eq_runCommand (i : Instr) (s : State) :
    exec i s = runCommand i (commandCheck s i) (commandLimbs s i) s := by
  cases i <;> rfl

theorem sizeCheck_eq_none_iff (m : Nat) (s : State) : sizeCheck m s = none ↔ m ≤ s.cfg.n := by
  unfold sizeCheck; split <;> simp_all

theorem bitsizeCheck_eq_none_iff (k : Nat) (s : State) : bitsizeCheck k s = none ↔ k ≤ s.cfg.capacity := by
  unfold bitsizeCheck; split <;> simp_all

/-- What a command's check can answer: the code of R75 exactly where M > N, that of R76 exactly where k > 64·N. -/
theorem commandCheck_eq_none_iff (s : State) (i : Instr) :
    commandCheck s i = none ↔ i.limbCount s.cfg.n ≤ s.cfg.n ∧ i.bitWidth s.cfg.n ≤ s.cfg.capacity := by
  cases i <;>
    simp [commandCheck, sizeCheck_eq_none_iff, bitsizeCheck_eq_none_iff, Instr.limbCount, Instr.bitWidth,
      Config.capacity]

theorem length_ripple (xs ys : List Word) (c : Bool) (h : xs.length = ys.length) :
    (ripple xs ys c).length = xs.length := by
  induction xs generalizing ys c with
  | nil => simp [ripple]
  | cons x xs ih =>
    cases ys with
    | nil => simp at h
    | cons y ys => simp [ripple, ih ys _ (by simpa using h)]

theorem length_maskFrom (k i : Nat) (ys : List Word) : (maskFrom k i ys).length = ys.length := by
  induction ys generalizing i with
  | nil => rfl
  | cons y ys ih => simp [maskFrom, ih]

/-- Every command computes N limbs (R57). -/
theorem length_commandLimbs (s : State) (i : Instr) : (commandLimbs s i).length = s.cfg.n := by
  cases i <;>
    simp [commandLimbs, fromScalar, addLimbs, mulLimbs, maskLimbs, mulmodLimbs, operandA, operandB, operandBLow,
      length_ripple, length_maskFrom, length_limbs, length_pack]

end Sys2Proof.Machine
end

