-- ==== Sys2Proof/Laws/Port.lean ====
section
/-!
SUPPORT. The register map (R19) as an inversion of its decode, and what one access can do (R28, R29, R32, R33).
-/

namespace Sys2Proof.Machine

/-- The three arrays start at multiples of 8, so a limb offset names exactly its limb (R31). -/
theorem limbIndex?_eq_some {n base off i : Nat} (hb : base % 8 = 0) :
    limbIndex? n base off = some i ↔ i < n ∧ off = base + 8 * i := by
  unfold limbIndex?
  split <;> simp <;> omega

theorem limbIndex?_eq_none {n base off : Nat} (hb : base % 8 = 0) :
    limbIndex? n base off = none ↔ ∀ i, i < n → off ≠ base + 8 * i := by
  unfold limbIndex?
  split <;> simp
  · refine ⟨(off - base) / 8, ?_, ?_⟩ <;> omega
  · intro i hi; omega

/-- A register of the map of a block of n limbs (R19). -/
def Reg.present (n : Nat) : Reg → Prop
  | .a i => i < n
  | .b i => i < n
  | .r i => i < n
  | .param | .ctrl | .status | .cmd | .scalar | .faddr | .fdata => True

/-- Decoding inverts the map (R19): an offset decodes to a register exactly when it is that register's offset. -/
theorem decodeOffset_eq_some_iff {c : Config} {off : Nat} {x : Reg} :
    decodeOffset c off = some x ↔ off = x.offset ∧ x.present c.n := by
  have hn := c.n_le
  constructor
  · intro h
    unfold decodeOffset at h
    split_ifs at h <;> try (cases h; exact ⟨by assumption, trivial⟩)
    split at h
    · cases h; rename_i ha; exact ((limbIndex?_eq_some (by decide)).mp ha).symm
    · split at h
      · cases h; rename_i ha; exact ((limbIndex?_eq_some (by decide)).mp ha).symm
      · split at h
        · cases h; rename_i ha; exact ((limbIndex?_eq_some (by decide)).mp ha).symm
        · cases h
  · rintro ⟨rfl, hx⟩
    cases x with
    | param | ctrl | status | cmd | scalar | faddr | fdata => rfl
    | a i =>
      have h1 : limbIndex? c.n 0x1000 (0x1000 + 8 * i) = some i := (limbIndex?_eq_some (by decide)).mpr ⟨hx, rfl⟩
      simp only [decodeOffset, Reg.offset, h1]
      repeat rw [if_neg (by omega)]
    | b i =>
      have hi : i < c.n := hx
      have h0 : limbIndex? c.n 0x1000 (0x2000 + 8 * i) = none :=
        (limbIndex?_eq_none (by decide)).mpr fun j hj => by omega
      have h1 : limbIndex? c.n 0x2000 (0x2000 + 8 * i) = some i := (limbIndex?_eq_some (by decide)).mpr ⟨hx, rfl⟩
      simp only [decodeOffset, Reg.offset, h0, h1]
      repeat rw [if_neg (by omega)]
    | r i =>
      have hi : i < c.n := hx
      have h0 : limbIndex? c.n 0x1000 (0x3000 + 8 * i) = none :=
        (limbIndex?_eq_none (by decide)).mpr fun j hj => by omega
      have h0' : limbIndex? c.n 0x2000 (0x3000 + 8 * i) = none :=
        (limbIndex?_eq_none (by decide)).mpr fun j hj => by omega
      have h1 : limbIndex? c.n 0x3000 (0x3000 + 8 * i) = some i := (limbIndex?_eq_some (by decide)).mpr ⟨hx, rfl⟩
      simp only [decodeOffset, Reg.offset, h0, h0', h1]
      repeat rw [if_neg (by omega)]

/-- A present register decodes from its own offset. -/
theorem decodeOffset_offset {c : Config} {x : Reg} (h : x.present c.n) : decodeOffset c x.offset = some x :=
  decodeOffset_eq_some_iff.mpr ⟨rfl, h⟩

/-- A reserved offset: no register of the block is there (R19). -/
theorem decodeOffset_eq_none_iff {c : Config} {off : Nat} :
    decodeOffset c off = none ↔ ∀ x : Reg, x.present c.n → off ≠ x.offset := by
  constructor
  · rintro h x hx rfl
    rw [decodeOffset_offset hx] at h; cases h
  · intro h
    rcases hd : decodeOffset c off with _ | x
    · rfl
    · exact absurd (decodeOffset_eq_some_iff.mp hd).1 (h x (decodeOffset_eq_some_iff.mp hd).2)

/-- Every register lies in the window, at a multiple of 8 (R19). -/
theorem offset_lt {c : Config} {x : Reg} (h : x.present c.n) : x.offset < 0x4000 ∧ x.offset % 8 = 0 := by
  have hn := c.n_le
  cases x with
  | param | ctrl | status | cmd | scalar | faddr | fdata => decide
  | a i | b i | r i =>
    have hi : i < c.n := h
    simp only [Reg.offset]
    omega

/-! ### One access -/

section
variable {s : State} {off : Nat} {v : Word} {rest : List Event}

theorem admitted_write (h : off < 0x4000) (h8 : off % 8 = 0) (c : Config) (v : Word) :
    admitted c (.write (c.base + off) 8 v) = true := by
  simp [admitted, Access.addr, Access.size, h, h8]

theorem admitted_read (h : off < 0x4000) (h8 : off % 8 = 0) (c : Config) :
    admitted c (.read (c.base + off) 8) = true := by
  simp [admitted, Access.addr, Access.size, h, h8]

/-- An admitted access reaches the window. -/
theorem reachesWindow_of_admitted {c : Config} {x : Access} (h : admitted c x = true) : reachesWindow c x = true := by
  simp only [admitted, reachesWindow, decide_eq_true_eq] at *
  omega

theorem portAccess_write (h : off < 0x4000) (h8 : off % 8 = 0) :
    portAccess (.write (s.cfg.base + off) 8 v) s = windowWrite off v s := by
  have ha := admitted_write h h8 s.cfg v
  simp [portAccess, ha, reachesWindow_of_admitted ha]

theorem portAccess_read (h : off < 0x4000) (h8 : off % 8 = 0) :
    portAccess (.read (s.cfg.base + off) 8) s = .next { s with lastRead := some (windowRead s.cfg s.block off) } := by
  have ha := admitted_read h h8 s.cfg
  simp [portAccess, ha, reachesWindow_of_admitted ha]

theorem step_withAccess (s : State) (x : Access) (rest : List Event) :
    step (s.withAccess x rest) = portAccess x { s with order := rest } := rfl

theorem step_withWrite (h : off < 0x4000) (h8 : off % 8 = 0) :
    step (s.withWrite off v rest) = windowWrite off v { s with order := rest } :=
  portAccess_write (s := { s with order := rest }) h h8

theorem windowWrite_cmd (w : Word) (s : State) : windowWrite 0x18 w s = issue w s := rfl
theorem windowWrite_ctrl (w : Word) (s : State) : windowWrite 0x8 w s = .next (writeCtrl w s) := rfl

/-- A write to a present register is decided by the register (R33). -/
theorem windowWrite_scalar (v : Word) (s : State) :
    windowWrite 0x20 v s = .next (writeOperand 0x20 v (fun b => { b with scalar := v }) s) := rfl

theorem windowWrite_a {i : Nat} (h : i < s.cfg.n) :
    windowWrite (0x1000 + 8 * i) v s =
      .next (writeOperand (0x1000 + 8 * i) v (fun b => { b with a := b.a.set i v }) s) := by
  have hd : decodeOffset s.cfg (0x1000 + 8 * i) = some (.a i) := decodeOffset_offset (x := .a i) h
  simp [windowWrite, hd]

theorem windowWrite_b {i : Nat} (h : i < s.cfg.n) :
    windowWrite (0x2000 + 8 * i) v s =
      .next (writeOperand (0x2000 + 8 * i) v (fun b => { b with b := b.b.set i v }) s) := by
  have hd : decodeOffset s.cfg (0x2000 + 8 * i) = some (.b i) := decodeOffset_offset (x := .b i) h
  simp [windowWrite, hd]
end

/-- Everything `Issue` can do (R55): it always answers a next state, and that state is s, a fault on the word, or what
the decoded command does. -/
theorem issue_cases (w : Word) (s : State) :
    (s.block.fault = true ∧ issue w s = .next s) ∨
    (∃ code, issue w s = .next (raiseFault code cmdOffset w s)) ∨
    (s.Ready ∧ ∃ i, decode w = .ok i ∧ issue w s = exec i s) := by
  unfold issue State.Ready
  cases s.block.fault <;> cases s.block.busy <;> simp
  · rcases decode w with e | i
    · left; exact ⟨_, rfl⟩
    · right; exact ⟨i, rfl, rfl⟩
  · exact ⟨_, rfl⟩

/-- Everything an admitted write can do (R33). -/
theorem windowWrite_cases (off : Nat) (v : Word) (s : State) :
    windowWrite off v s = .next s ∨ windowWrite off v s = .next (resetBlock s) ∨
    windowWrite off v s = issue v s ∨
    (∃ put : Block → Block, windowWrite off v s = .next (writeOperand off v put s) ∧
      (put = (fun b => { b with scalar := v }) ∨ (∃ i, put = fun b => { b with a := b.a.set i v }) ∨
       (∃ i, put = fun b => { b with b := b.b.set i v }))) := by
  unfold windowWrite writeCtrl
  rcases decodeOffset s.cfg off with _ | x
  · exact .inl rfl
  · cases x with
    | param | status | faddr | fdata => exact .inl rfl
    | r i => exact .inl rfl
    | ctrl => cases v.getLsbD 0 <;> simp
    | cmd => exact .inr (.inr (.inl rfl))
    | scalar => exact .inr (.inr (.inr ⟨_, rfl, .inl rfl⟩))
    | a i => exact .inr (.inr (.inr ⟨_, rfl, .inr (.inl ⟨i, rfl⟩)⟩))
    | b i => exact .inr (.inr (.inr ⟨_, rfl, .inr (.inr ⟨i, rfl⟩)⟩))

end Sys2Proof.Machine
end

