-- ==== Sys2Proof/Laws/Turns.lean ====
section
/-!
SUPPORT. What a turn can do to the block, said once (`BlockMove`, `step_move`); a run unfolded by its first step; and
the host's variables (log 9).
-/

namespace Sys2Proof.Machine

/-! ### Commands -/

/-- What a command computes depends on the block and the configuration alone (R57). -/
theorem commandLimbs_congr {s s' : State} (hc : s'.cfg = s.cfg) (hb : s'.block = s.block) (i : Instr) :
    commandLimbs s' i = commandLimbs s i := by
  cases i <;> simp [commandLimbs, operandA, operandB, operandBLow, operandScalar, hc, hb]

/-- Everything `exec` can do: complete, be ignored, fault, or be accepted. -/
theorem exec_cases {i : Instr} {s t : State} (h : exec i s = .next t) :
    (inFlight i s = true ∧ t = complete (commandLimbs s i) s) ∨ (s.block.fault = true ∧ t = s) ∨
    ((s.block.fault = false ∨ s.block.busy = true) ∧ ∃ code, t = raiseFault code cmdOffset (encode i) s) ∨
    (s.Ready ∧ i.limbCount s.cfg.n ≤ s.cfg.n ∧ i.bitWidth s.cfg.n ≤ s.cfg.capacity ∧ t = accept i s) := by
  rw [exec_eq_runCommand] at h
  have hn := commandCheck_eq_none_iff s i
  unfold runCommand at h
  unfold State.Ready
  cases hi : inFlight i s <;> cases hf : s.block.fault <;> cases hb : s.block.busy <;>
    cases hc : commandCheck s i <;> simp [hi, hf, hb, hc] at h hn ⊢ <;> simp [← h, hn] <;>
    first | exact ⟨_, rfl⟩ | exact .inl ⟨_, rfl⟩

/-! ### What a turn can do to the block -/

/-- The blocks one turn can leave: the same, reset, completed, faulted, accepted, or an operand written. -/
inductive BlockMove (s : State) : Block → Prop where
  | same : BlockMove s s.block
  | reset : BlockMove s (Block.reset s.cfg)
  | completed {f : Inflight} (busy : s.block.busy = true) (inflight : s.block.inflight = some f) :
      BlockMove s (s.block.completed (commandLimbs s f.instr))
  | faulted (code : FaultCode) {off : Nat} (data : Word) (window : off < 0x4000)
      (fresh : s.block.fault = false ∨ s.block.busy = true) :
      BlockMove s (s.block.faulted code.code (BitVec.ofNat 64 off) data)
  | accepted {i : Instr} {w : Word} (ready : s.Ready) (decoded : decode w = .ok i)
      (size : i.limbCount s.cfg.n ≤ s.cfg.n) (width : i.bitWidth s.cfg.n ≤ s.cfg.capacity) :
      BlockMove s (s.block.accepted s.cfg i)
  | scalar (v : Word) (idle : s.block.busy = false) : BlockMove s { s.block with scalar := v }
  | limbA (j : Nat) (v : Word) (idle : s.block.busy = false) : BlockMove s { s.block with a := s.block.a.set j v }
  | limbB (j : Nat) (v : Word) (idle : s.block.busy = false) : BlockMove s { s.block with b := s.block.b.set j v }

/-- `BlockMove` looks at the configuration and the block alone. -/
theorem BlockMove.congr {s s' : State} {b : Block} (h : BlockMove s b) (hc : s'.cfg = s.cfg)
    (hb : s'.block = s.block) : BlockMove s' b := by
  cases h with
  | same => exact hb ▸ .same
  | reset => exact hc ▸ .reset
  | completed h1 h2 =>
    rw [← hb] at h1 h2
    rw [← hb, ← commandLimbs_congr hc hb]; exact .completed h1 h2
  | faulted code data h1 h2 => rw [← hb] at h2 ⊢; exact .faulted code data h1 h2
  | accepted h1 h2 h3 h4 =>
    unfold State.Ready at h1
    rw [← hb] at h1 ⊢
    rw [← hc] at h3 h4 ⊢
    exact .accepted h1 h2 h3 h4
  | scalar v h1 => rw [← hb] at h1 ⊢; exact .scalar v h1
  | limbA j v h1 => rw [← hb] at h1 ⊢; exact .limbA j v h1
  | limbB j v h1 => rw [← hb] at h1 ⊢; exact .limbB j v h1

theorem issue_move {w : Word} {s t : State} (h : issue w s = .next t) : t.cfg = s.cfg ∧ BlockMove s t.block := by
  unfold issue at h
  cases hf : s.block.fault with
  | true => rw [if_pos hf] at h; cases h; exact ⟨rfl, .same⟩
  | false =>
    rw [if_neg (by simp [hf])] at h
    cases hb : s.block.busy with
    | true => rw [if_pos hb] at h; cases h; exact ⟨rfl, .faulted _ w (by decide) (.inl hf)⟩
    | false =>
      rw [if_neg (by simp [hb])] at h
      split at h
      · cases h; exact ⟨rfl, .faulted _ w (by decide) (.inl hf)⟩
      · rename_i i hd
        rcases exec_cases h with ⟨h1, -⟩ | ⟨h1, -⟩ | ⟨-, code, rfl⟩ | ⟨h1, h2, h3, rfl⟩
        · rw [not_inFlight_of_idle hb] at h1; cases h1
        · rw [hf] at h1; cases h1
        · exact ⟨rfl, .faulted code _ (by decide) (.inl hf)⟩
        · exact ⟨rfl, .accepted h1 hd h2 h3⟩

theorem windowWrite_move {off : Nat} {v : Word} {s t : State} (ho : off < 0x4000)
    (h : windowWrite off v s = .next t) : t.cfg = s.cfg ∧ BlockMove s t.block := by
  rcases windowWrite_cases off v s with h1 | h1 | h1 | ⟨put, h1, hp⟩ <;> rw [h1] at h
  · cases h; exact ⟨rfl, .same⟩
  · cases h; exact ⟨rfl, .reset⟩
  · exact issue_move h
  · cases h
    unfold writeOperand
    cases hb : s.block.busy with
    | true => exact ⟨rfl, .faulted _ v ho (.inr hb)⟩
    | false =>
      rcases hp with rfl | ⟨j, rfl⟩ | ⟨j, rfl⟩
      · exact ⟨rfl, .scalar v hb⟩
      · exact ⟨rfl, .limbA j v hb⟩
      · exact ⟨rfl, .limbB j v hb⟩

theorem portAccess_move {x : Access} {s t : State} (h : portAccess x s = .next t) :
    t.cfg = s.cfg ∧ BlockMove s t.block := by
  unfold portAccess at h
  split at h
  · split at h
    · rename_i ha
      simp only [admitted, decide_eq_true_eq] at ha
      cases x with
      | read a n => cases h; exact ⟨rfl, .same⟩
      | write a n v =>
        simp only [Access.addr] at ha
        exact windowWrite_move (by omega) h
    · cases h
  · cases h; exact ⟨rfl, .same⟩

theorem jump_block {l : Nat} {s t : State} (h : jump l s = .next t) : t.cfg = s.cfg ∧ t.block = s.block := by
  unfold jump at h
  split at h <;> cases h
  exact ⟨rfl, rfl⟩

theorem hostStmt_move {st : Stmt} {s t : State} (h : hostStmt st s = .next t) :
    t.cfg = s.cfg ∧ BlockMove s t.block := by
  have same : ∀ {u : State}, u.cfg = s.cfg ∧ u.block = s.block → u.cfg = s.cfg ∧ BlockMove s u.block :=
    fun hu => ⟨hu.1, hu.2 ▸ .same⟩
  have port : ∀ {x : Access} {u : State}, portAccess x (advance s) = .next u → u.cfg = s.cfg ∧ BlockMove s u.block :=
    fun hu => ⟨(portAccess_move hu).1, (portAccess_move hu).2.congr rfl rfl⟩
  cases st with
  | wr x v =>
    simp only [hostStmt, hostWrite] at h
    split at h
    · exact port h
    · cases h
  | rd x v =>
    simp only [hostStmt, hostRead] at h
    split at h
    · split at h <;> cases h
      rename_i u hu
      exact ⟨(port hu).1, (port hu).2⟩
    · cases h
  | bnz t' imm l | bz t' imm l =>
    simp only [hostStmt] at h
    split at h
    · exact same (jump_block h)
    · cases h; exact same ⟨rfl, rfl⟩
  | label l | halt | sum t' ts => cases h; exact same ⟨rfl, rfl⟩

theorem hostTurn_move {s t : State} (h : hostTurn s = .next t) : t.cfg = s.cfg ∧ BlockMove s t.block := by
  unfold hostTurn at h
  split at h
  · exact hostStmt_move h
  · cases h; exact ⟨rfl, .same⟩

/-- The datapath's turn completes the command in flight (R58). -/
theorem completeTurn_inflight {s : State} {f : Inflight} (hb : s.block.busy = true) (hf : s.block.inflight = some f) :
    completeTurn s = .next (complete (commandLimbs s f.instr) s) := by
  rw [completeTurn, if_pos hb, hf]
  show exec f.instr s = _
  rw [exec_eq_runCommand, runCommand_inFlight ((inFlight_iff _ _).mpr ⟨hb, f, hf, rfl⟩)]

theorem completeTurn_move {s t : State} (h : completeTurn s = .next t) : t.cfg = s.cfg ∧ BlockMove s t.block := by
  cases hb : s.block.busy with
  | false => simp only [completeTurn, hb] at h; cases h; exact ⟨rfl, .same⟩
  | true =>
    cases hf : s.block.inflight with
    | none => simp [completeTurn, hb, hf] at h
    | some f => rw [completeTurn_inflight hb hf] at h; cases h; exact ⟨rfl, .completed hb hf⟩

/-- Everything a step can do to the block; it never changes the configuration. -/
theorem step_move {s t : State} (h : step s = .next t) : t.cfg = s.cfg ∧ BlockMove s t.block := by
  unfold step nextTurn at h
  split at h
  · rename_i e rest _
    have key : t.cfg = s.cfg ∧ BlockMove { s with order := rest } t.block := by
      cases e with
      | host => exact (hostTurn_move (s := { s with order := rest }) h :)
      | access x => exact (portAccess_move (s := { s with order := rest }) h :)
      | complete => exact (completeTurn_move (s := { s with order := rest }) h :)
      | reset => cases h; exact ⟨rfl, .reset⟩
    exact ⟨key.1, key.2.congr rfl rfl⟩
  · unfold idleTurn at h
    split at h
    · exact completeTurn_move h
    · exact hostTurn_move h

/-! ### Turns that abandon nothing -/

theorem portAccess_harmless {x : Access} {s : State} (h : x.harmless s.cfg = true) :
    ∃ r, portAccess x s = .next { s with lastRead := r } := by
  unfold portAccess
  cases hr : reachesWindow s.cfg x with
  | false => exact ⟨s.lastRead, rfl⟩
  | true =>
    simp only [Access.harmless, hr, Bool.not_true, Bool.false_or, Bool.and_eq_true] at h
    rw [if_pos rfl, if_pos h.1]
    cases x with
    | read a n => exact ⟨_, rfl⟩
    | write a n v =>
      have hw := h.2
      dsimp only at hw ⊢
      unfold windowWrite
      rcases hd : decodeOffset s.cfg (a - s.cfg.base) with _ | y
      · exact ⟨s.lastRead, rfl⟩
      · rw [hd] at hw
        cases y with
        | ctrl =>
          simp only [Bool.not_eq_true'] at hw
          exact ⟨s.lastRead, by simp only [writeCtrl]; rw [hw]; rfl⟩
        | cmd | scalar | a i | b i => cases hw
        | param | status | faddr | fdata | r i => exact ⟨s.lastRead, rfl⟩

/-- A register of the map lies in the window, at a multiple of 8 (R19). -/
theorem offset_of_inMap {x : Reg} (h : x.inMap = true) : x.offset < 0x4000 ∧ x.offset % 8 = 0 := by
  cases x with
  | param | ctrl | status | cmd | scalar | faddr | fdata => decide
  | a i | b i | r i =>
    have hi : i < 512 := of_decide_eq_true h
    simp only [Reg.offset]
    omega

theorem jump_next {l : Nat} {s : State} (h : (findLabelFrom s.host.program l 0).isSome = true) :
    ∃ t, jump l s = .next t ∧ t.cfg = s.cfg ∧ t.block = s.block ∧ t.order = s.order := by
  obtain ⟨p, hp⟩ := Option.isSome_iff_exists.mp h
  have hj : jump l s = .next { s with host := { s.host with pos := p } } := by rw [jump, hp]
  exact ⟨_, hj, rfl, rfl, rfl⟩

theorem hostTurn_harmless {s : State} (h : s.hostHarmless = true) :
    ∃ t, hostTurn s = .next t ∧ t.cfg = s.cfg ∧ t.block = s.block ∧ t.order = s.order := by
  unfold State.hostHarmless at h
  unfold hostTurn
  cases hp : s.host.program[s.host.pos]? with
  | none => exact ⟨s, rfl, rfl, rfl, rfl⟩
  | some st =>
    rw [hp] at h
    simp only [Bool.and_eq_true] at h
    obtain ⟨ha, hw⟩ := h
    cases st with
    | wr x v =>
      obtain ⟨r, hr⟩ := portAccess_harmless (s := advance s) hw
      have hs : hostStmt (.wr x v) s = .next { advance s with lastRead := r } := by
        simp only [hostStmt, hostWrite]
        exact (if_pos ha).trans hr
      exact ⟨_, hs, rfl, rfl, rfl⟩
    | rd x t =>
      obtain ⟨h1, h2⟩ := offset_of_inMap ha
      have hr := portAccess_read (s := advance s) h1 h2
      have hs : hostStmt (.rd x t) s = .next (setVar t (windowRead s.cfg s.block x.offset).toNat
          { advance s with lastRead := some (windowRead s.cfg s.block x.offset) }) := by
        simp only [hostStmt, hostRead]
        exact (if_pos ha).trans (by rw [hr]; rfl)
      exact ⟨_, hs, rfl, rfl, rfl⟩
    | bnz t imm l | bz t imm l =>
      simp only [hostStmt]
      split
      · exact jump_next ha
      · exact ⟨_, rfl, rfl, rfl, rfl⟩
    | label l | halt | sum t ts => exact ⟨_, rfl, rfl, rfl, rfl⟩

/-- A turn that abandons nothing, while a command is in flight: it is the datapath's, or it leaves the block. -/
theorem step_harmless {s : State} (h : s.turnHarmless = true) (hb : s.block.busy = true) :
    step s = completeTurn { s with order := s.order.tail } ∨
    ∃ t, step s = .next t ∧ t.cfg = s.cfg ∧ t.block = s.block ∧ s.order ≠ [] ∧ t.order = s.order.tail := by
  unfold State.turnHarmless at h
  unfold step nextTurn
  rcases ho : s.order with _ | ⟨e, rest⟩
  · left
    obtain ⟨c, b, a, o, l⟩ := s
    simp only at ho hb
    subst ho
    simp [idleTurn, hb]
  · rw [ho] at h
    cases e with
    | complete => exact .inl rfl
    | reset => cases h
    | host =>
      obtain ⟨t, h1, h2, h3, h4⟩ := hostTurn_harmless (s := { s with order := rest }) h
      exact .inr ⟨t, h1, h2, h3, by simp, h4⟩
    | access x =>
      obtain ⟨r, hr⟩ := portAccess_harmless (s := { s with order := rest }) (x := x) h
      exact .inr ⟨_, hr, rfl, rfl, by simp, rfl⟩

/-! ### Runs -/

/-- A run unfolded by its first step. -/
theorem run_succ {s t : State} (k : Nat) (h : step s = .next t) :
    Host.Core.run Sys2Proof.core (k + 1) s = Host.Core.run Sys2Proof.core k t := by
  have gen : ∀ (M : Host.Core) (u u' : M.State), M.step u = .next u' → M.run (k + 1) u = M.run k u' := by
    intro M u u' hu
    rw [Host.Core.run, hu]
  exact gen Sys2Proof.core s t h

/-- A run that answers a next state made its first step. -/
theorem run_succ_eq_next {s u : State} {k : Nat} (h : Host.Core.run Sys2Proof.core (k + 1) s = .next u) :
    ∃ t, step s = .next t ∧ Host.Core.run Sys2Proof.core k t = .next u := by
  have gen : ∀ (M : Host.Core) (v w : M.State), M.run (k + 1) v = .next w →
      ∃ t, M.step v = .next t ∧ M.run k t = .next w := by
    intro M v w hv
    rw [Host.Core.run] at hv
    cases hs : M.step v with
    | next t => rw [hs] at hv; exact ⟨t, rfl, hv⟩
    | fault r => rw [hs] at hv; cases hv
    | refused r => rw [hs] at hv; cases hv
  exact gen Sys2Proof.core s u h

/-! ### Host variables -/

theorem varsCanonFrom_mono {lo lo' : Nat} (h : lo' ≤ lo) {vs : List (Nat × Nat)} (hv : varsCanonFrom lo vs = true) :
    varsCanonFrom lo' vs = true := by
  cases vs with
  | nil => rfl
  | cons p vs =>
    obtain ⟨u, x⟩ := p
    simp only [varsCanonFrom, Bool.and_eq_true, decide_eq_true_eq] at hv ⊢
    exact ⟨⟨by omega, hv.1.2⟩, hv.2⟩

/-- Setting a variable keeps the canonical form. -/
theorem varSet_canonFrom {vs : List (Nat × Nat)} {t lo : Nat} (v : Nat) (h : varsCanonFrom lo vs = true)
    (ht : lo ≤ t) : varsCanonFrom lo (varSet vs t v) = true := by
  induction vs generalizing lo with
  | nil => unfold varSet; split <;> simp [varsCanonFrom, *]
  | cons p vs ih =>
    obtain ⟨u, x⟩ := p
    have h' := h
    simp only [varsCanonFrom, Bool.and_eq_true, decide_eq_true_eq] at h
    unfold varSet
    split_ifs with h1 h2 h3 h4
    · exact h'
    · simp only [varsCanonFrom, Bool.and_eq_true, decide_eq_true_eq]
      exact ⟨⟨ht, h2⟩, ⟨by omega, h.1.2⟩, h.2⟩
    · exact varsCanonFrom_mono (by omega) h.2
    · subst h3
      simp only [varsCanonFrom, Bool.and_eq_true, decide_eq_true_eq]
      exact ⟨⟨ht, h4⟩, h.2⟩
    · simp only [varsCanonFrom, Bool.and_eq_true, decide_eq_true_eq]
      exact ⟨h.1, ih h.2 (by omega)⟩

theorem varGet_of_lt {vs : List (Nat × Nat)} {lo u : Nat} (h : varsCanonFrom lo vs = true) (hu : u < lo) :
    varGet vs u = 0 := by
  induction vs generalizing lo with
  | nil => rfl
  | cons p vs ih =>
    obtain ⟨t, x⟩ := p
    simp only [varsCanonFrom, Bool.and_eq_true, decide_eq_true_eq] at h
    rw [varGet, if_neg (by omega)]
    exact ih h.2 (by omega)

/-- A set variable reads back, and every other keeps its value. -/
theorem varGet_varSet {vs : List (Nat × Nat)} {lo : Nat} (t v u : Nat) (h : varsCanonFrom lo vs = true) :
    varGet (varSet vs t v) u = if u = t then v else varGet vs u := by
  induction vs generalizing lo with
  | nil =>
    unfold varSet
    split_ifs <;> simp_all [varGet]
    omega
  | cons p vs ih =>
    obtain ⟨w, x⟩ := p
    simp only [varsCanonFrom, Bool.and_eq_true, decide_eq_true_eq] at h
    have hlt : ∀ {u}, u ≤ w → varGet vs u = 0 := fun hu => varGet_of_lt h.2 (by omega)
    have i := ih h.2
    unfold varSet
    split_ifs <;> try simp only [varGet, i]
    all_goals (try split_ifs) <;> first | omega | (rw [hlt (by omega)]; omega)

end Sys2Proof.Machine
end

