-- ==== Sys2Proof/Laws/Assembler.lean ====
section
/-!
SUPPORT. The assembler (R59, R60): every name in an expansion is one the source mentions or one made up there, and a
label is found where it first stands.
-/

namespace Sys2Proof.Machine

theorem lt_above {xs : List Nat} {x : Nat} (h : x ∈ xs) : x < above xs := by
  induction xs with
  | nil => cases h
  | cons y ys ih =>
    have hm : above (y :: ys) = max (y + 1) (above ys) := rfl
    rcases List.mem_cons.mp h with rfl | h
    · omega
    · have := ih h
      omega

/-- A label that no statement before it mentions is found where it stands. -/
theorem findLabelFrom_append {pre rest : List Stmt} {l : Nat} (h : ∀ st ∈ pre, l ∉ st.labels) (p : Nat) :
    findLabelFrom (pre ++ .label l :: rest) l p = some (p + pre.length) := by
  induction pre generalizing p with
  | nil => simp [findLabelFrom]
  | cons st pre ih =>
    have ih' := ih (fun x hx => h x (List.mem_cons_of_mem _ hx)) (p + 1)
    have hst := h st List.mem_cons_self
    cases st <;> simp [findLabelFrom, Stmt.labels] at hst ⊢ <;>
      first
      | (rw [if_neg (Ne.symm hst), ih']; simp; omega)
      | (rw [ih']; simp; omega)

theorem expandLines_append (n : Nat) (xs ys : List Line) (k : Names) :
    expandLines n (xs ++ ys) k =
      (expandLines n xs k).bind fun r => (expandLines n ys r.2).map fun r' => (r.1 ++ r'.1, r'.2) := by
  induction xs generalizing k with
  | nil => simp [expandLines]
  | cons x xs ih =>
    simp only [List.cons_append, expandLines]
    cases expandLine n x k with
    | none => rfl
    | some r =>
      obtain ⟨sts, k'⟩ := r
      simp only [ih]
      cases expandLines n xs k' with
      | none => rfl
      | some r =>
        cases h : expandLines n ys r.2 <;> simp [h]

/-! ### The names in an expansion -/

/-- Every name of a kind in `sts` is one of `mentioned`, or was made up from `lo` on and below `hi`. -/
def NamesWithin (names : Stmt → List Nat) (sts : List Stmt) (mentioned : List Nat) (lo hi : Nat) : Prop :=
  lo ≤ hi ∧ ∀ st ∈ sts, ∀ x ∈ names st, x ∈ mentioned ∨ lo ≤ x ∧ x < hi

theorem loadStmts_names {x : Nat → Reg} {v i count : Nat} {st : Stmt} (h : st ∈ loadStmts x v i count) :
    st.labels = [] ∧ st.vars = [] := by
  induction count generalizing v i with
  | zero => cases h
  | succ c ih =>
    rcases List.mem_cons.mp h with rfl | h
    · exact ⟨rfl, rfl⟩
    · exact ih h

theorem readStmts_names {t0 i count : Nat} {st : Stmt} (h : st ∈ readStmts t0 i count) :
    st.labels = [] ∧ ∀ x ∈ st.vars, t0 ≤ x ∧ x < t0 + (i + count) := by
  induction count generalizing i with
  | zero => cases h
  | succ c ih =>
    rcases List.mem_cons.mp h with rfl | h
    · refine ⟨rfl, fun x hx => ?_⟩
      simp only [Stmt.vars, List.mem_singleton] at hx
      omega
    · refine ⟨(ih h).1, fun x hx => ?_⟩
      have := (ih h).2 x hx
      omega

theorem stmt?_names {c : Command} {st : Stmt} (h : c.stmt? = some st) : st.labels = [] ∧ st.vars = [] := by
  cases c with
  | raw w => cases h; exact ⟨rfl, rfl⟩
  | mnemonic i =>
    simp only [Command.stmt?, assemble] at h
    split at h <;> cases h
    exact ⟨rfl, rfl⟩

theorem expandLine_labels {n : Nat} {line : Line} {k k' : Names} {sts : List Stmt}
    (h : expandLine n line k = some (sts, k')) : NamesWithin Stmt.labels sts line.labels k.label k'.label := by
  cases line with
  | stmt st => cases h; exact ⟨le_refl _, fun st' h' x hx => .inl (by rw [List.mem_singleton.mp h'] at hx; exact hx)⟩
  | command c =>
    simp only [expandLine, Option.map_eq_some_iff] at h
    obtain ⟨st, hs, h⟩ := h
    cases h
    refine ⟨le_refl _, fun st' h' x hx => ?_⟩
    rw [List.mem_singleton.mp h', (stmt?_names hs).1] at hx
    cases hx
  | wait s =>
    cases h
    refine ⟨Nat.le_succ _, fun st h' x hx => .inr ?_⟩
    simp only [Names.afterWait]
    simp only [waitStmts, List.mem_cons, List.not_mem_nil, or_false] at h'
    rcases h' with rfl | rfl | rfl <;> simp [Stmt.labels] at hx
    all_goals omega
  | run c s =>
    simp only [expandLine, runStmts, Option.map_eq_some_iff] at h
    obtain ⟨sts', ⟨st, hs, rfl⟩, h⟩ := h
    cases h
    refine ⟨Nat.le_succ _, fun st' h' x hx => .inr ?_⟩
    simp only [Names.afterWait]
    simp only [waitStmts, List.mem_cons, List.not_mem_nil, or_false] at h'
    rcases h' with rfl | rfl | rfl | rfl
    · rw [(stmt?_names hs).1] at hx; cases hx
    all_goals simp [Stmt.labels] at hx
    all_goals omega
  | lda v | ldb v =>
    cases h
    exact ⟨le_refl _, fun st h' x hx => by rw [(loadStmts_names h').1] at hx; cases hx⟩
  | rdr t =>
    cases h
    refine ⟨le_refl _, fun st h' x hx => ?_⟩
    rcases List.mem_append.mp h' with h' | h'
    · rw [(readStmts_names h').1] at hx; cases hx
    · rw [List.mem_singleton.mp h'] at hx; cases hx
  | srst =>
    cases h
    exact ⟨le_refl _, fun st h' x hx => by rw [List.mem_singleton.mp h'] at hx; cases hx⟩

theorem expandLine_vars {n : Nat} {line : Line} {k k' : Names} {sts : List Stmt}
    (h : expandLine n line k = some (sts, k')) : NamesWithin Stmt.vars sts line.vars k.var k'.var := by
  have wait : ∀ (s : Option Nat) (st : Stmt), st ∈ waitStmts k.label (k.waitVar s) → ∀ x ∈ st.vars,
      x ∈ s.toList ∨ k.var ≤ x ∧ x < (k.afterWait s).var := by
    intro s st h' x hx
    have hx' : x = k.waitVar s := by
      simp only [waitStmts, List.mem_cons, List.not_mem_nil, or_false] at h'
      rcases h' with rfl | rfl | rfl
      · cases hx
      all_goals simpa [Stmt.vars] using hx
    subst hx'
    cases s with
    | none => exact .inr ⟨le_refl _, Nat.lt_succ_self _⟩
    | some y => exact .inl (by simp [Names.waitVar])
  have after : ∀ s, k.var ≤ (k.afterWait s).var := fun s => by cases s <;> simp [Names.afterWait]
  cases line with
  | stmt st => cases h; exact ⟨le_refl _, fun st' h' x hx => .inl (by rw [List.mem_singleton.mp h'] at hx; exact hx)⟩
  | command c =>
    simp only [expandLine, Option.map_eq_some_iff] at h
    obtain ⟨st, hs, h⟩ := h
    cases h
    refine ⟨le_refl _, fun st' h' x hx => ?_⟩
    rw [List.mem_singleton.mp h', (stmt?_names hs).2] at hx
    cases hx
  | wait s => cases h; exact ⟨after s, wait s⟩
  | run c s =>
    simp only [expandLine, runStmts, Option.map_eq_some_iff] at h
    obtain ⟨sts', ⟨st, hs, rfl⟩, h⟩ := h
    cases h
    refine ⟨after s, fun st' h' x hx => ?_⟩
    rcases List.mem_cons.mp h' with rfl | h'
    · rw [(stmt?_names hs).2] at hx; cases hx
    · exact wait s st' h' x hx
  | lda v | ldb v =>
    cases h
    exact ⟨le_refl _, fun st h' x hx => by rw [(loadStmts_names h').2] at hx; cases hx⟩
  | rdr t =>
    cases h
    refine ⟨Nat.le_add_right _ _, fun st h' x hx => ?_⟩
    rcases List.mem_append.mp h' with h' | h'
    · have := (readStmts_names h').2 x hx
      exact .inr (by dsimp only; omega)
    · rw [List.mem_singleton.mp h'] at hx
      simp only [Stmt.vars, List.mem_cons, List.mem_map, List.mem_range] at hx
      rcases hx with rfl | ⟨i, hi, rfl⟩
      · exact .inl (List.mem_singleton_self _)
      · exact .inr (by dsimp only; omega)
  | srst =>
    cases h
    exact ⟨le_refl _, fun st h' x hx => by rw [List.mem_singleton.mp h'] at hx; cases hx⟩

/-- Two expansions after each other. -/
theorem NamesWithin.append {names : Stmt → List Nat} {xs ys : List Stmt} {as bs : List Nat} {lo mid hi : Nat}
    (hx : NamesWithin names xs as lo mid) (hy : NamesWithin names ys bs mid hi) :
    NamesWithin names (xs ++ ys) (as ++ bs) lo hi := by
  refine ⟨hx.1.trans hy.1, fun st h x hxst => ?_⟩
  have h1 := hx.1
  have h2 := hy.1
  rcases List.mem_append.mp h with h | h
  · rcases hx.2 st h x hxst with h | h
    · exact .inl (List.mem_append_left _ h)
    · exact .inr (by omega)
  · rcases hy.2 st h x hxst with h | h
    · exact .inl (List.mem_append_right _ h)
    · exact .inr (by omega)

/-- The labels and the variables of an expanded program. -/
theorem expandLines_names {n : Nat} {lines : List Line} {k : Names} {r : List Stmt × Names}
    (h : expandLines n lines k = some r) :
    NamesWithin Stmt.labels r.1 (lines.flatMap Line.labels) k.label r.2.label ∧
    NamesWithin Stmt.vars r.1 (lines.flatMap Line.vars) k.var r.2.var := by
  induction lines generalizing k r with
  | nil => cases h; exact ⟨⟨le_refl _, fun _ h => nomatch h⟩, ⟨le_refl _, fun _ h => nomatch h⟩⟩
  | cons line lines ih =>
    simp only [expandLines] at h
    split at h
    · cases h
    · rename_i sts k' hl
      obtain ⟨r', hr, rfl⟩ := Option.map_eq_some_iff.mp h
      exact ⟨(expandLine_labels hl).append (ih hr).1, (expandLine_vars hl).append (ih hr).2⟩

end Sys2Proof.Machine
end

