-- ==== Sys2Proof/Laws/Encoding.lean ====
section
/-!
SUPPORT. The fields of a CMD word as arithmetic on its value (R48), and the value of an encoded command (R59).
-/

namespace Sys2Proof

theorem opcField_toNat (w : Word) : (opcField w).toNat = w.toNat % 2 ^ 4 := by
  simp [opcField, BitVec.extractLsb'_toNat]
theorem rsv0Field_toNat (w : Word) : (rsv0Field w).toNat = w.toNat / 2 ^ 4 % 2 ^ 12 := by
  simp [rsv0Field, BitVec.extractLsb'_toNat, Nat.shiftRight_eq_div_pow]
theorem mm1Field_toNat (w : Word) : (mm1Field w).toNat = w.toNat / 2 ^ 16 % 2 ^ 10 := by
  simp [mm1Field, BitVec.extractLsb'_toNat, Nat.shiftRight_eq_div_pow]
theorem rsv1Field_toNat (w : Word) : (rsv1Field w).toNat = w.toNat / 2 ^ 26 % 2 ^ 6 := by
  simp [rsv1Field, BitVec.extractLsb'_toNat, Nat.shiftRight_eq_div_pow]
theorem bitsizeField_toNat (w : Word) : (bitsizeField w).toNat = w.toNat / 2 ^ 32 % 2 ^ 16 := by
  simp [bitsizeField, BitVec.extractLsb'_toNat, Nat.shiftRight_eq_div_pow]
theorem rsv2Field_toNat (w : Word) : (rsv2Field w).toNat = w.toNat / 2 ^ 48 % 2 ^ 16 := by
  simp [rsv2Field, BitVec.extractLsb'_toNat, Nat.shiftRight_eq_div_pow]

@[simp] theorem wellFormed_addm (m : Nat) : (Instr.addm m).wellFormed = decide (1 ≤ m ∧ m ≤ 1024) := rfl
@[simp] theorem wellFormed_mulm (m : Nat) : (Instr.mulm m).wellFormed = decide (1 ≤ m ∧ m ≤ 1024) := rfl
@[simp] theorem wellFormed_addmod (k : Nat) : (Instr.addmod k).wellFormed = decide (k ≤ 65535) := rfl
@[simp] theorem wellFormed_mulmod (k : Nat) : (Instr.mulmod k).wellFormed = decide (k ≤ 65535) := rfl

/-- A small opcode and a shifted field do not overlap. -/
theorem toNat_or_shift {c x sh : Nat} (hc : c < 2 ^ sh) (hs : sh < 64) (hx : x * 2 ^ sh < 2 ^ 64) :
    (BitVec.ofNat 64 c ||| BitVec.ofNat 64 x <<< sh).toNat = x * 2 ^ sh + c := by
  have hp : 2 ^ sh ≤ 2 ^ 63 := Nat.pow_le_pow_right (by decide) (by omega)
  have hx' : x < 2 ^ 64 := lt_of_le_of_lt (Nat.le_mul_of_pos_right x (Nat.two_pow_pos sh)) hx
  rw [BitVec.toNat_or, BitVec.toNat_shiftLeft, BitVec.toNat_ofNat, BitVec.toNat_ofNat,
    Nat.mod_eq_of_lt (by omega : c < 2 ^ 64), Nat.mod_eq_of_lt hx', Nat.shiftLeft_eq, Nat.mod_eq_of_lt hx,
    Nat.or_comm, ← Nat.shiftLeft_eq, ← Nat.shiftLeft_add_eq_or_of_lt hc, Nat.shiftLeft_eq]

theorem encode_addm_toNat {m : Nat} (h : m ≤ 1024) : (encode (.addm m)).toNat = (m - 1) * 2 ^ 16 + 4 :=
  toNat_or_shift (by decide) (by decide) (by omega)
theorem encode_mulm_toNat {m : Nat} (h : m ≤ 1024) : (encode (.mulm m)).toNat = (m - 1) * 2 ^ 16 + 6 :=
  toNat_or_shift (by decide) (by decide) (by omega)
theorem encode_addmod_toNat {k : Nat} (h : k ≤ 65535) : (encode (.addmod k)).toNat = k * 2 ^ 32 + 7 :=
  toNat_or_shift (by decide) (by decide) (by omega)
theorem encode_mulmod_toNat {k : Nat} (h : k ≤ 65535) : (encode (.mulmod k)).toNat = k * 2 ^ 32 + 8 :=
  toNat_or_shift (by decide) (by decide) (by omega)

end Sys2Proof
end

