-- ==== Sys2Proof/Laws/PerInstr.lean ====
section
/-!
SUPPORT. The family EncodedFields: what stands in each field of an encoded command (R48, R52), command by command.
-/

namespace Sys2Proof.Laws.EncodedFields

/-- The fields of the word of a well-formed command: its opcode, M − 1 and k where it uses them, 0 everywhere else. -/
def Statement (i : Instr) : Prop :=
  i.WellFormed →
    opcField (encode i) = i.op.code ∧
    (mm1Field (encode i)).toNat = (if i.op.usesMM1 then i.limbCount 1 - 1 else 0) ∧
    (bitsizeField (encode i)).toNat = (if i.op.usesBitsize then i.bitWidth 0 else 0) ∧
    rsv0Field (encode i) = 0 ∧ rsv1Field (encode i) = 0 ∧ rsv2Field (encode i) = 0

theorem zero : Statement .zero := by unfold Statement; decide
theorem fromsc : Statement .fromsc := by unfold Statement; decide
theorem add : Statement .add := by unfold Statement; decide
theorem mul : Statement .mul := by unfold Statement; decide

theorem addm (m : Nat) : Statement (.addm m) := by
  intro h
  have hm : 1 ≤ m ∧ m ≤ 1024 := of_decide_eq_true h
  simp only [← BitVec.toNat_inj, opcField_toNat, mm1Field_toNat, bitsizeField_toNat, rsv0Field_toNat, rsv1Field_toNat,
    rsv2Field_toNat, encode_addm_toNat hm.2, Instr.op, Op.code, Op.usesMM1, Op.usesBitsize, Instr.limbCount,
    BitVec.ofNat_eq_ofNat, BitVec.toNat_ofNat]
  norm_num
  omega

theorem mulm (m : Nat) : Statement (.mulm m) := by
  intro h
  have hm : 1 ≤ m ∧ m ≤ 1024 := of_decide_eq_true h
  simp only [← BitVec.toNat_inj, opcField_toNat, mm1Field_toNat, bitsizeField_toNat, rsv0Field_toNat, rsv1Field_toNat,
    rsv2Field_toNat, encode_mulm_toNat hm.2, Instr.op, Op.code, Op.usesMM1, Op.usesBitsize, Instr.limbCount,
    BitVec.ofNat_eq_ofNat, BitVec.toNat_ofNat]
  norm_num
  omega

theorem addmod (k : Nat) : Statement (.addmod k) := by
  intro h
  have hk : k ≤ 65535 := of_decide_eq_true h
  simp only [← BitVec.toNat_inj, opcField_toNat, mm1Field_toNat, bitsizeField_toNat, rsv0Field_toNat, rsv1Field_toNat,
    rsv2Field_toNat, encode_addmod_toNat hk, Instr.op, Op.code, Op.usesMM1, Op.usesBitsize, Instr.bitWidth,
    BitVec.ofNat_eq_ofNat, BitVec.toNat_ofNat]
  norm_num
  omega

theorem mulmod (k : Nat) : Statement (.mulmod k) := by
  intro h
  have hk : k ≤ 65535 := of_decide_eq_true h
  simp only [← BitVec.toNat_inj, opcField_toNat, mm1Field_toNat, bitsizeField_toNat, rsv0Field_toNat, rsv1Field_toNat,
    rsv2Field_toNat, encode_mulmod_toNat hk, Instr.op, Op.code, Op.usesMM1, Op.usesBitsize, Instr.bitWidth,
    BitVec.ofNat_eq_ofNat, BitVec.toNat_ofNat]
  norm_num
  omega

end Sys2Proof.Laws.EncodedFields
end

