-- ==== Sys2Proof/Tests/Slice0.lean ====
section
/-!
SUPPORT. Tests: the checks of WellFormed, decoded words, one step of each command, the register window; then, for the
statements of Obligations.lean, witnesses that meet their hypotheses. Expected results are the rows of
spec/95_test_vectors.md named in the comments.
-/

namespace Sys2Proof.Tests

open Sys2Proof Sys2Proof.Machine

/-! ### Small states -/

/-- An idle block with its operands loaded. -/
def idle (c : Config) (a b : List Word) (scalar : Word) : State :=
  { State.resetOf c with block := { Block.reset c with a := a, b := b, scalar := scalar } }

/-- The same block with command i in flight. -/
def busy (c : Config) (i : Instr) (a b : List Word) (scalar : Word) : State :=
  { idle c a b scalar with block := (idle c a b scalar).block.accepted c i }

/-- A block of four limbs with a SIZE_ORDER fault (the FAULTED rows of table F). -/
def faulted4 : State := { idle Config.u256 [1, 2, 3, 4] [5, 6, 7, 8] 9 with
  block := (idle Config.u256 [1, 2, 3, 4] [5, 6, 7, 8] 9).block.faulted 1 0x18 0x40004 }

def idle4 : State := idle Config.u256 [1, 2, 3, 4] [5, 6, 7, 8] 9
def busy4 (i : Instr) : State := busy Config.u256 i [1, 2, 3, 4] [5, 6, 7, 8] 9

/-- A limb of all ones. -/
def f : Word := 0xFFFFFFFFFFFFFFFF#64

/-- R after a step, none if it did not answer a next state. -/
def resultR : Host.Outcome State Fault Refusal → Option (List Word)
  | .next t => some t.block.r
  | .fault _ => none
  | .refused _ => none

/-- STATUS, FADDR and FDATA after a step. -/
def record : Host.Outcome State Fault Refusal → Option (Word × Word × Word)
  | .next t => some (statusWord t.block, t.block.faddr, t.block.fdata)
  | .fault _ => none
  | .refused _ => none

/-- The data the port returned. -/
def readData : Host.Outcome State Fault Refusal → Option Word
  | .next t => t.lastRead
  | .fault _ => none
  | .refused _ => none

def refuses : Host.Outcome State Fault Refusal → Option Refusal
  | .next _ => none
  | .fault _ => none
  | .refused r => some r

def write (off : Nat) (v : Word) (s : State) : Host.Outcome State Fault Refusal := step (s.withWrite off v [])
def read (off : Nat) (s : State) : Host.Outcome State Fault Refusal :=
  step (s.withAccess (.read (s.cfg.base + off) 8) [])

/-! ### WellFormed refuses what no field can hold (R59) -/

theorem test_addm_zero_ill_formed : (Instr.addm 0).wellFormed = false := by decide
theorem test_addm_1025_ill_formed : (Instr.addm 1025).wellFormed = false := by decide
theorem test_mulm_zero_ill_formed : (Instr.mulm 0).wellFormed = false := by decide
theorem test_mulm_1025_ill_formed : (Instr.mulm 1025).wellFormed = false := by decide
theorem test_addmod_65536_ill_formed : (Instr.addmod 65536).wellFormed = false := by decide
theorem test_mulmod_65536_ill_formed : (Instr.mulmod 65536).wellFormed = false := by decide
theorem test_assembler_refuses_addm_zero : assemble (.addm 0) = none := by decide
theorem test_assembler_refuses_undefined_label : assembleProgram 1 [.stmt (.bz 0 0x1 3)] = none := by decide
/-- The expansions of R60 written out, with labels and a variable the source does not mention; `run` of a raw word. -/
theorem test_assembler_expands :
    assembleProgram 1 [.stmt (.label 0), .run (.raw 0x9) none, .wait (some 7), .stmt (.bnz 7 0x4 0), .rdr 2, .srst] =
      some [.label 0, .wr .cmd (.imm 0x9), .label 1, .rd .status 8, .bnz 8 0x1 1, .label 2, .rd .status 7, .bnz 7 0x1 2,
        .bnz 7 0x4 0, .rd (.r 0) 9, .sum 2 [9], .wr .ctrl (.imm 0x1)] := by decide
theorem test_configuration_refused :
    Config.make? 0 0 = none ∧ Config.make? 513 0 = none ∧ Config.make? 4 0x1000 = none := by decide

/-! ### Decoding: words of table A, and of R59 -/

theorem test_decode_zero : decode 0x0000000000000001#64 = .ok .zero := by decide
theorem test_decode_fromsc : decode 0x0000000000000002#64 = .ok .fromsc := by decide
theorem test_decode_add : decode 0x0000000000000003#64 = .ok .add := by decide
theorem test_decode_addm :
    decode 0x0000000000000004#64 = .ok (.addm 1) ∧ decode 0x0000000000030004#64 = .ok (.addm 4) ∧
    decode 0x0000000003FF0004#64 = .ok (.addm 1024) := by decide
theorem test_decode_mul : decode 0x0000000000000005#64 = .ok .mul := by decide
theorem test_decode_mulm :
    decode 0x0000000000010006#64 = .ok (.mulm 2) ∧ decode 0x0000000003FF0006#64 = .ok (.mulm 1024) := by decide
theorem test_decode_addmod :
    decode 0x0000000000000007#64 = .ok (.addmod 0) ∧ decode 0x0000010000000007#64 = .ok (.addmod 256) := by decide
theorem test_decode_mulmod :
    decode 0x000000C800000008#64 = .ok (.mulmod 200) ∧ decode 0x0000FFFF00000008#64 = .ok (.mulmod 65535) := by decide
theorem test_decode_illegal :
    decode 0x0000000000000000#64 = .error .reservedOpcode ∧ decode 0x0000000000000009#64 = .error .reservedOpcode ∧
    decode 0x000000000000000F#64 = .error .reservedOpcode ∧ decode 0x0000000000000010#64 = .error .reservedBits ∧
    decode 0x0000000000010003#64 = .error .unusedField ∧ decode 0x8000000000040004#64 = .error .reservedBits ∧
    decode 0x0000000004000004#64 = .error .reservedBits ∧ decode 0x0000006400000005#64 = .error .unusedField ∧
    decode 0x0001000000000007#64 = .error .reservedBits := by decide
theorem test_decode_table_word : decodeTableWord 64 0x30004 = some (.addm 4) ∧ decodeTableWord 64 0 = none := by decide

/-! ### The commands (tables B to E) -/

theorem test_zero_clears_r :
    resultR (exec .zero { busy4 .zero with block := { (busy4 .zero).block with r := [5, 6, 7, 8] } }) =
      some [0, 0, 0, 0] := by decide
theorem test_zero_first_step_keeps_r :
    resultR (exec .zero { idle4 with block := { idle4.block with r := [5, 6, 7, 8] } }) = some [5, 6, 7, 8] := by decide
theorem test_fromsc_not_sign_extended : resultR (exec .fromsc (busy Config.u128 .fromsc [3, 3] [3, 3] f)) = some [f, 0] := by
  decide
theorem test_fromsc_one_limb : resultR (exec .fromsc (busy Config.u64 .fromsc [3] [3] 0x2A)) = some [0x2A] := by decide
theorem test_add_row7 :
    resultR (exec .add (busy Config.u256 .add
      [0x0123456789ABCDEF, 0xFEDCBA9876543210, 0x1111111111111111, 0x8000000000000000]
      [0xFEDCBA9876543210, 0x0123456789ABCDEF, 0xEEEEEEEEEEEEEEEF, 0x8000000000000000] 0)) = some [f, f, 0, 1] := by decide
theorem test_add_carry_ripples_out :
    resultR (exec .add (busy Config.u256 .add [f, f, f, f] [1, 0, 0, 0] 0)) = some [0, 0, 0, 0] := by decide
theorem test_addm_carry_past_m :
    resultR (exec (.addm 1) (busy Config.u256 (.addm 1) [f, f, f, 0] [1, 0xAAAA, 0xBBBB, 0xCCCC] 0)) =
      some [0, 0, 0, 1] := by decide
theorem test_addm_two :
    resultR (exec (.addm 2) (busy Config.u256 (.addm 2) [f, f, 0, 7] [1, f, 0xDEAD, 0xBEEF] 0)) = some [0, f, 1, 7] := by
  decide
theorem test_mul_row9 :
    resultR (exec .mul (busy Config.u256 .mul
      [0x0123456789ABCDEF, 0xFEDCBA9876543210, 0x1111111111111111, 0x8000000000000000]
      [0xFEDCBA9876543210, 0x0123456789ABCDEF, 0xEEEEEEEEEEEEEEEF, 0x8000000000000000] 0)) =
      some [0x2236D88FE5618CF0, 0xBCB448E0E2B4BD63, 0x0F08A98B4777B59A, 0xA419B56EBD17F6D0] := by decide
theorem test_mul_all_ones : resultR (exec .mul (busy Config.u256 .mul [f, f, f, f] [f, f, f, f] 0)) = some [1, 0, 0, 0] := by
  decide
theorem test_mulm_two :
    resultR (exec (.mulm 2) (busy Config.u256 (.mulm 2) [f, f, f, f] [f, f, 0x1234, 0x5678] 0)) = some [1, 0, f, f] := by
  decide
theorem test_mulm_five_faults :
    record (exec (.mulm 5) idle4) = some (0x14, 0x18, 0x0000000000040006) := by decide
theorem test_addmod_191 :
    resultR (exec (.addmod 191) (busy Config.u256 (.addmod 191) [f, f, f, f] [f, f, f, f] 0)) =
      some [0xFFFFFFFFFFFFFFFE, f, 0x7FFFFFFFFFFFFFFF, 0] := by decide
theorem test_addmod_64 :
    resultR (exec (.addmod 64) (busy Config.u256 (.addmod 64) [f, f, f, f] [f, f, f, f] 0)) =
      some [0xFFFFFFFFFFFFFFFE, 0, 0, 0] := by decide
theorem test_mulmod_200 :
    resultR (exec (.mulmod 200) (busy Config.u256 (.mulmod 200)
      [0x0123456789ABCDEF, 0xFEDCBA9876543210, 0x1111111111111111, 0x8000000000000000]
      [0xFEDCBA9876543210, 0x0123456789ABCDEF, 0xEEEEEEEEEEEEEEEF, 0x8000000000000000] 0)) =
      some [0x2236D88FE5618CF0, 0xBCB448E0E2B4BD63, 0x0F08A98B4777B59A, 0xD0] := by decide
theorem test_mulmod_257_faults : record (exec (.mulmod 257) idle4) = some (0x24, 0x18, 0x0000010100000008) := by decide

/-- The schoolbook loop with its rippling carry: table D, where a carry of one limb only would give [1, 0, 0, F]. -/
theorem test_schoolbook_all_ones : schoolbook 4 [f, f, f, f] [f, f, f, f] = [1, 0, 0, 0] := by decide
/-- The limb step: table C. -/
theorem test_add_step : addStep f f true = (f, true) ∧ addStep f 0 true = (0, true) ∧ addStep 0 0 true = (1, false) := by
  decide

/-! ### The register interface (table F) -/

theorem test_read_param : readData (read 0x0 State.reset) = some 0x0000000001400004#64 := by decide
theorem test_read_past_limb_n : readData (read 0x1020 idle4) = some 0 := by decide
theorem test_busy_operand_write : record (write 0x1000 9 (busy4 .add)) = some (0x44, 0x1000, 9) := by decide
theorem test_busy_cmd_write : record (write 0x18 0x3 (busy4 .add)) = some (0x44, 0x18, 3) := by decide
theorem test_busy_ctrl_write_bit0_clear : record (write 0x8 0x2 (busy4 .add)) = some (0x1, 0, 0) := by decide
theorem test_faulted_command_ignored : record (write 0x18 0x3 faulted4) = some (0x14, 0x18, 0x40004) := by decide
theorem test_illegal_before_size :
    record (write 0x18 0x8000000000040004#64 idle4) = some (0x34, 0x18, 0x8000000000040004#64) := by decide
theorem test_narrow_write_refused :
    refuses (step (idle4.withAccess (.write 0x1000 4 0) [])) = some .busError ∧
    refuses (step (idle4.withAccess (.write 0x1004 8 0) [])) = some .busError := by decide
/-- The word placed by withFetchWord is accepted by the first step after reset. -/
theorem test_fetch_word_runs_first : record (step (State.reset.withFetchWord 64 0x3)) = some (0x1, 0, 0) := by decide
theorem test_status_busy_bits : statusWord (busy4 .add).block = 1 := by decide

/-! ### States that meet the hypotheses of the statements

Each theorem below shows one concrete state, with operands, that meets all hypotheses of one statement (or of one of
its clauses) together. -/

theorem idle_inv {c : Config} {a b : List Word} (x : Word) (ha : a.length = c.n) (hb : b.length = c.n) :
    (idle c a b x).Inv where
  block :=
    { a_length := ha
      b_length := hb
      r_length := List.length_replicate
      status_form := .inl ⟨rfl, rfl, rfl, rfl⟩
      inflight_iff_busy := rfl
      inflight_legal := fun _ h => nomatch h
      faddr_offset := by show (0 : Nat) < 0x4000; decide
      no_record_unless_fault := fun _ => ⟨rfl, rfl⟩ }
  vars := rfl

theorem busy_inv {c : Config} {a b : List Word} {i : Instr} (x : Word) (ha : a.length = c.n) (hb : b.length = c.n)
    (hl : i.Legal c) : (busy c i a b x).Inv where
  block :=
    { a_length := ha
      b_length := hb
      r_length := List.length_replicate
      status_form := .inr (.inl ⟨rfl, rfl, rfl, rfl⟩)
      inflight_iff_busy := rfl
      inflight_legal := by
        intro g h
        cases h
        exact ⟨by rw [Inflight.instr_mk]; exact hl, by rw [Inflight.instr_mk]; rfl⟩
      faddr_offset := by show (0 : Nat) < 0x4000; decide
      no_record_unless_fault := fun _ => ⟨rfl, rfl⟩ }
  vars := rfl

theorem idle4_inv : idle4.Inv := idle_inv 9 rfl rfl
theorem busy4_inv {i : Instr} (hl : i.Legal Config.u256) : (busy4 i).Inv := busy_inv 9 rfl rfl hl
theorem add_legal : Instr.add.Legal Config.u256 := ⟨by decide, by decide, by decide⟩
theorem busy4_add_inv : (busy4 .add).Inv := busy4_inv add_legal
theorem busy4_running (i : Instr) : (busy4 i).Running i := ⟨rfl, rfl⟩
theorem faulted4_inv : faulted4.Inv where
  block :=
    { a_length := rfl
      b_length := rfl
      r_length := rfl
      status_form := .inr (.inr (.inr ⟨rfl, rfl, rfl, by decide, by decide⟩))
      inflight_iff_busy := rfl
      inflight_legal := fun _ h => nomatch h
      faddr_offset := by decide
      no_record_unless_fault := fun h => nomatch h }
  vars := rfl

/-! Reset and configuration -/

theorem witness_reset_row : ∃ b : Block, b = ⟨List.replicate idle4.cfg.n 0, List.replicate idle4.cfg.n 0,
    List.replicate idle4.cfg.n 0, 0, false, false, false, 0, 0, 0, none⟩ := ⟨_, rfl⟩
theorem witness_soft_reset_bit : (0x1#64).getLsbD 0 = true ∧ (0xFFFFFFFFFFFFFFFE#64).getLsbD 0 = false := by decide
theorem witness_soft_reset_faulted : faulted4.block.fault = true ∧ faulted4.block.busy = false ∧
    (0x3FF8 < 0x4000 ∧ 0x3FF8 % 8 = 0 ∧ 0x3FF8 ≠ 0x8) := by decide
theorem witness_reset_abandons : (busy4 .add).block.busy = true ∧ (0x1#64).getLsbD 0 = true := by decide
theorem witness_configuration_steps : ∃ s t, step s = .next t := ⟨State.reset, State.reset, rfl⟩
theorem witness_invariant_steps : ∃ s t, s.Inv ∧ step s = .next t := ⟨busy4 .add, _, busy4_add_inv, rfl⟩
theorem witness_well_posed : ∃ s : State, s.Inv ∧ s.WellPosed :=
  ⟨{ idle4 with host := ⟨[.wr .cmd (.imm 0x3), .label 0, .rd .status 0, .bnz 0 0x1 0, .halt], 0, []⟩,
                order := [.host, .access (.read 0x3FF8 8), .access (.write 0x4000 1 0)] },
    ⟨idle4_inv.block, rfl⟩, ⟨by decide, by
      intro x hx
      simp only [List.mem_cons, reduceCtorEq, Event.access.injEq, List.not_mem_nil, or_false, false_or] at hx
      rcases hx with rfl | rfl <;> decide⟩⟩

/-! Encoding: the boundary values of M and k -/

theorem witness_well_formed : (Instr.addm 1).WellFormed ∧ (Instr.addm 1024).WellFormed ∧ (Instr.mulm 1).WellFormed ∧
    (Instr.mulm 1024).WellFormed ∧ (Instr.addmod 0).WellFormed ∧ (Instr.addmod 65535).WellFormed ∧
    (Instr.mulmod 0).WellFormed ∧ (Instr.mulmod 65535).WellFormed ∧ Instr.zero.WellFormed := by decide
theorem witness_decodes : ∃ w i, decode w = .ok i := ⟨0x3, .add, by decide⟩
theorem witness_row_matches : ∃ row ∈ opcodeTable, row.Matches 0x0000000003FF0006#64 := by decide
/-- One word for each arm of `IllegalFields`: RSV2, RSV1, RSV0, OPC 0x0, OPC 0x9, MM1 on ADD, BITSIZE on MUL. -/
theorem witness_illegal_fields : IllegalFields 0x8000000000040004#64 ∧ IllegalFields 0x0000000004000004#64 ∧
    IllegalFields 0x0000000000000011#64 ∧ IllegalFields 0 ∧ IllegalFields 0x0000000000000009#64 ∧
    IllegalFields 0x0000000000010003#64 ∧ IllegalFields 0x0000006400000005#64 := by
  refine ⟨?_, ?_, ?_, ?_, ?_, ?_, ?_⟩ <;> (unfold IllegalFields; decide)
theorem witness_m_and_k : decode 0x0000000000000004#64 = .ok (.addm 1) ∧ decode 0x0000000003FF0006#64 = .ok (.mulm 1024) ∧
    decode 0x0000000000000007#64 = .ok (.addmod 0) ∧ decode 0x0000FFFF00000008#64 = .ok (.mulmod 65535) := by decide

/-! A step runs the decoded command -/

theorem witness_written_command : decode 0x3#64 = .ok .add ∧ idle4.Ready := ⟨by decide, rfl, rfl⟩
theorem witness_host_command : ∃ s : State, decode 0x3#64 = .ok .add ∧ s.Ready ∧
    s.host.program[s.host.pos]? = some (.wr .cmd (.imm 0x3#64)) :=
  ⟨{ idle4 with host := ⟨[.wr .cmd (.imm 0x3#64)], 0, []⟩ }, by decide, ⟨rfl, rfl⟩, rfl⟩
theorem witness_command_in_flight : (busy4 .mul).Running .mul := busy4_running .mul

/-! Issue -/

theorem witness_accept : idle4.Ready ∧ (Instr.addm 4).Legal idle4.cfg ∧ (Instr.mulmod 256).Legal idle4.cfg ∧
    (Instr.addmod 0).Legal idle4.cfg :=
  ⟨⟨rfl, rfl⟩, ⟨by decide, by decide, by decide⟩, ⟨by decide, by decide, by decide⟩, ⟨by decide, by decide, by decide⟩⟩
theorem witness_size_order : idle4.Ready ∧ decode 0x40004#64 = .ok (.addm 5) ∧ idle4.cfg.n < 5 ∧
    decode 0x30006#64 = .ok (.mulm 4) ∧ 4 ≤ idle4.cfg.n := ⟨⟨rfl, rfl⟩, by decide, by decide, by decide, by decide⟩
theorem witness_bitsize_range : idle4.Ready ∧ decode 0x0000010100000007#64 = .ok (.addmod 257) ∧ 64 * idle4.cfg.n < 257 ∧
    decode 0x0000010000000008#64 = .ok (.mulmod 256) ∧ 256 ≤ 64 * idle4.cfg.n :=
  ⟨⟨rfl, rfl⟩, by decide, by decide, by decide, by decide⟩
theorem witness_illegal : idle4.Ready ∧ ∃ e, decode 0x0000000000000009#64 = .error e := ⟨⟨rfl, rfl⟩, _, rfl⟩
theorem witness_busy_violation : (busy4 .add).block.busy = true ∧ (busy4 .add).block.fault = false ∧
    (3 < (busy4 .add).cfg.n ∧ (0x1018 = 0x1000 + 8 * 3 ∨ 0x1018 = 0x2000 + 8 * 3)) ∧
    (0 < (busy4 .add).cfg.n ∧ (0x2000 = 0x1000 + 8 * 0 ∨ 0x2000 = 0x2000 + 8 * 0)) := by decide
theorem witness_no_busy_violation : ∀ off, off = 0x8 ∨ off = 0x1020 ∨ off = 0x3000 →
    off < 0x4000 ∧ off % 8 = 0 ∧ off ≠ 0x18 ∧ off ≠ 0x20 ∧
    ∀ i, i < (busy4 .add).cfg.n → off ≠ 0x1000 + 8 * i ∧ off ≠ 0x2000 + 8 * i := by
  rintro off h
  refine ⟨by omega, by omega, by omega, by omega, fun i hi => ?_⟩
  have hi : i < 4 := hi
  omega
theorem witness_faulted_block : faulted4.block.fault = true ∧ faulted4.block.busy = false ∧ 3 < faulted4.cfg.n := by decide
theorem witness_sticky : ∃ t, faulted4.Inv ∧ faulted4.block.fault = true ∧ step faulted4 = .next t :=
  ⟨_, faulted4_inv, rfl, rfl⟩

/-! The commands. The clauses of IssueOutcomes: FAULTED, BUSY, M above N, k above 64·N, accepted; the words of an OPC
that are no command; and the second step. -/

theorem witness_issue_states : faulted4.block.fault = true ∧ (busy4 .add).block.fault = false ∧
    (busy4 .add).block.busy = true ∧ idle4.Ready := ⟨rfl, rfl, rfl, rfl, rfl⟩
theorem witness_issue_ranges : idle4.cfg.n < (Instr.addm 5).limbCount idle4.cfg.n ∧
    idle4.cfg.n < (Instr.mulm 1024).limbCount idle4.cfg.n ∧
    idle4.cfg.capacity < (Instr.addmod 257).bitWidth idle4.cfg.n ∧
    idle4.cfg.capacity < (Instr.mulmod 65535).bitWidth idle4.cfg.n := by decide
theorem witness_issue_accepts : Instr.zero.Legal idle4.cfg ∧ Instr.fromsc.Legal idle4.cfg ∧ Instr.add.Legal idle4.cfg ∧
    Instr.mul.Legal idle4.cfg := by
  refine ⟨?_, ?_, ?_, ?_⟩ <;> exact ⟨by decide, by decide, by decide⟩
theorem witness_no_command_words :
    (opcField 0x10001#64 = 0x1#4 ∧ (0x10001#64 : Word) ≠ 0x1#64) ∧ (opcField 0x12#64 = 0x2#4 ∧ (0x12#64 : Word) ≠ 0x2#64) ∧
    (opcField 0x10003#64 = 0x3#4 ∧ (0x10003#64 : Word) ≠ 0x3#64) ∧
    (opcField 0x6400000005#64 = 0x5#4 ∧ (0x6400000005#64 : Word) ≠ 0x5#64) := by decide
theorem witness_no_addm_word : opcField 0x4000004#64 = 0x4#4 ∧
    ∀ m, 1 ≤ m → m ≤ 1024 → (0x4000004#64 : Word) ≠ 0x4#64 ||| (BitVec.ofNat 64 (m - 1) <<< 16) :=
  ⟨by decide, fun _ _ h2 he => by
    have := congrArg BitVec.toNat he
    rw [toNat_or_shift (by decide) (by decide) (by omega), BitVec.toNat_ofNat] at this
    omega⟩
theorem witness_no_mulm_word : opcField 0x4000006#64 = 0x6#4 ∧
    ∀ m, 1 ≤ m → m ≤ 1024 → (0x4000006#64 : Word) ≠ 0x6#64 ||| (BitVec.ofNat 64 (m - 1) <<< 16) :=
  ⟨by decide, fun _ _ h2 he => by
    have := congrArg BitVec.toNat he
    rw [toNat_or_shift (by decide) (by decide) (by omega), BitVec.toNat_ofNat] at this
    omega⟩
theorem witness_no_addmod_word : opcField 0x1000000000007#64 = 0x7#4 ∧
    ∀ k, k ≤ 65535 → (0x1000000000007#64 : Word) ≠ 0x7#64 ||| (BitVec.ofNat 64 k <<< 32) :=
  ⟨by decide, fun _ h he => by
    have := congrArg BitVec.toNat he
    rw [toNat_or_shift (by decide) (by decide) (by omega), BitVec.toNat_ofNat] at this
    omega⟩
theorem witness_no_mulmod_word : opcField 0x1000000000008#64 = 0x8#4 ∧
    ∀ k, k ≤ 65535 → (0x1000000000008#64 : Word) ≠ 0x8#64 ||| (BitVec.ofNat 64 k <<< 32) :=
  ⟨by decide, fun _ h he => by
    have := congrArg BitVec.toNat he
    rw [toNat_or_shift (by decide) (by decide) (by omega), BitVec.toNat_ofNat] at this
    omega⟩
theorem witness_second_steps : (busy4 .zero).Running .zero ∧ (busy4 .fromsc).Running .fromsc :=
  ⟨busy4_running _, busy4_running _⟩
theorem witness_add_runs : (busy4 .add).Inv ∧ (busy4 .add).Running .add := ⟨busy4_add_inv, busy4_running _⟩
theorem witness_addm_runs : (busy4 (.addm 4)).Inv ∧ (busy4 (.addm 4)).Running (.addm 4) ∧
    (busy4 (.addm 1)).Inv ∧ (busy4 (.addm 1)).Running (.addm 1) :=
  ⟨busy4_inv ⟨by decide, by decide, by decide⟩, busy4_running _,
    busy4_inv ⟨by decide, by decide, by decide⟩, busy4_running _⟩
theorem witness_mul_runs : (busy4 .mul).Inv ∧ (busy4 .mul).Running .mul :=
  ⟨busy4_inv ⟨by decide, by decide, by decide⟩, busy4_running _⟩
theorem witness_mulm_runs : (busy4 (.mulm 4)).Inv ∧ (busy4 (.mulm 4)).Running (.mulm 4) ∧
    (busy4 (.mulm 1)).Inv ∧ (busy4 (.mulm 1)).Running (.mulm 1) :=
  ⟨busy4_inv ⟨by decide, by decide, by decide⟩, busy4_running _,
    busy4_inv ⟨by decide, by decide, by decide⟩, busy4_running _⟩
theorem witness_addmod_runs : (busy4 (.addmod 256)).Inv ∧ (busy4 (.addmod 256)).Running (.addmod 256) ∧
    (busy4 (.addmod 0)).Inv ∧ (busy4 (.addmod 0)).Running (.addmod 0) :=
  ⟨busy4_inv ⟨by decide, by decide, by decide⟩, busy4_running _,
    busy4_inv ⟨by decide, by decide, by decide⟩, busy4_running _⟩
theorem witness_mulmod_runs : (busy4 (.mulmod 256)).Inv ∧ (busy4 (.mulmod 256)).Running (.mulmod 256) ∧
    (busy4 (.mulmod 0)).Inv ∧ (busy4 (.mulmod 0)).Running (.mulmod 0) :=
  ⟨busy4_inv ⟨by decide, by decide, by decide⟩, busy4_running _,
    busy4_inv ⟨by decide, by decide, by decide⟩, busy4_running _⟩
theorem witness_legal_command : idle4.Inv ∧ idle4.Ready ∧ (Instr.mulm 4).WellFormed ∧ (Instr.mulm 4).Legal idle4.cfg :=
  ⟨idle4_inv, ⟨rfl, rfl⟩, by decide, ⟨by decide, by decide, by decide⟩⟩
theorem witness_frame : (∃ t, exec .add (busy4 .add) = .next t) ∧ (∃ t, exec (.addm 5) idle4 = .next t) ∧
    (¬(0x3000 ≤ 0x3020 ∧ 0x3020 < 0x3000 + 8 * idle4.cfg.n) ∧ ¬(0x10 ≤ 0x3020 ∧ 0x3020 < 0x18) ∧
      ¬(0x28 ≤ 0x3020 ∧ 0x3020 < 0x38)) := ⟨⟨_, rfl⟩, ⟨_, rfl⟩, by decide⟩
theorem witness_high_limbs : ∃ t b', b' ≠ (busy4 (.addm 2)).block.b ∧ b'.take 2 = (busy4 (.addm 2)).block.b.take 2 ∧
    exec (.addm 2) (busy4 (.addm 2)) = .next t := ⟨_, [5, 6, 0, 0], by decide, by decide, rfl⟩
theorem witness_high_limbs_mulm : ∃ t b', b' ≠ (busy4 (.mulm 2)).block.b ∧ b'.take 2 = (busy4 (.mulm 2)).block.b.take 2 ∧
    exec (.mulm 2) (busy4 (.mulm 2)) = .next t := ⟨_, [5, 6, 0, 0], by decide, by decide, rfl⟩

/-! Arithmetic -/

theorem witness_pack_index : ∃ i n : Nat, i < n := ⟨0, 1, by decide⟩
theorem witness_mask : ∃ (k : Nat) (ys : List Word), 0 < k ∧ k ≤ 64 * ys.length := ⟨128, [f, f], by decide⟩
theorem witness_mask_boundary : ∃ (q : Nat) (ys : List Word), 0 < q ∧ q ≤ ys.length := ⟨2, [f, f], by decide⟩
theorem witness_mulmod_width : ∃ n k : Nat, k ≤ 64 * n := ⟨4, 256, by decide⟩

/-! The window: the last limb, the first reserved offset after it, the last offset of the window -/

theorem witness_reads : ∃ (rd : Nat → Host.Outcome State Fault Refusal) (ans : Word → Host.Outcome State Fault Refusal),
    (∀ off, rd off = step (idle4.withAccess (.read (idle4.cfg.base + off) 8) [])) ∧
    (∀ v, ans v = .next { idle4 with order := [], lastRead := some v }) := ⟨_, _, fun _ => rfl, fun _ => rfl⟩
theorem witness_limb_index : 3 < idle4.cfg.n := by decide
theorem witness_reserved_offsets : ∀ off, off = 0x38 ∨ off = 0x1020 ∨ off = 0x3FF8 →
    0x38 ≤ off ∧ off < 0x4000 ∧ off % 8 = 0 ∧
    ∀ i, i < idle4.cfg.n → off ≠ 0x1000 + 8 * i ∧ off ≠ 0x2000 + 8 * i ∧ off ≠ 0x3000 + 8 * i := by
  rintro off h
  refine ⟨by omega, by omega, by omega, fun i hi => ?_⟩
  have hi : i < 4 := hi
  omega
theorem witness_operand_write : idle4.Inv ∧ idle4.block.busy = false ∧ 3 < idle4.cfg.n := ⟨idle4_inv, rfl, by decide⟩
theorem witness_window_access : ∃ x : Access, idle4.cfg.base ≤ x.addr ∧ x.addr < idle4.cfg.base + 0x4000 ∧ x.size ≠ 8 :=
  ⟨.read 0 4, by decide⟩
theorem witness_window_misaligned : ∃ x : Access, idle4.cfg.base ≤ x.addr ∧ x.addr < idle4.cfg.base + 0x4000 ∧
    x.size = 8 ∧ (x.addr - idle4.cfg.base) % 8 ≠ 0 := ⟨.write 0x3FFF 8 0, by decide⟩
theorem witness_window_admitted : ∃ x : Access, idle4.cfg.base ≤ x.addr ∧ x.addr < idle4.cfg.base + 0x4000 ∧
    x.size = 8 ∧ (x.addr - idle4.cfg.base) % 8 = 0 := ⟨.write 0x3FF8 8 0, by decide⟩
theorem witness_outside_above : ∃ x : Access, idle4.cfg.base + 0x4000 ≤ x.addr := ⟨.write 0x4000 8 0, by decide⟩
theorem witness_outside_below : ∃ (s : State) (x : Access), x.addr + max x.size 1 ≤ s.cfg.base :=
  ⟨State.resetOf ⟨4, 0x4000, by decide, by decide, by decide⟩, .write 0x3FF8 8 0, by decide⟩
theorem witness_window_byte : idle4.Inv ∧ 31 < 8 * idle4.cfg.n := ⟨idle4_inv, by decide⟩
theorem witness_status_forms : idle4.block.StatusForm ∧ (busy4 .add).block.StatusForm ∧ faulted4.block.StatusForm ∧
    (idle4.block.completed []).StatusForm :=
  ⟨idle4_inv.block.status_form, busy4_add_inv.block.status_form, faulted4_inv.block.status_form,
    .inr (.inr (.inl ⟨rfl, rfl, rfl, rfl⟩))⟩
theorem witness_param : idle4.cfg.n = 4 := rfl

/-! The order of turns -/

theorem witness_frozen : ∃ s t : State, s.Inv ∧ s.block.busy = true ∧ step s = .next t ∧ t.block.busy = true :=
  ⟨(busy4 .add).withAccess (.read ((busy4 .add).cfg.base + 0x10) 8) [],
    { busy4 .add with lastRead := some (windowRead (busy4 .add).cfg (busy4 .add).block 0x10) },
    ⟨busy4_add_inv.block, rfl⟩, rfl, by
      rw [step_withAccess, portAccess_read (s := { busy4 .add with order := [] }) (off := 0x10) (by decide) (by decide)]
      rfl, rfl⟩
theorem witness_r_changes : ∃ s t : State, s.Inv ∧ step s = .next t ∧ t.block.r ≠ s.block.r :=
  ⟨busy4 .add, _, busy4_add_inv, rfl, by decide⟩
/-- `turnHarmless` along a run, while command g is in flight. -/
def harmlessRun (g : Inflight) : Nat → State → Bool
  | 0, s => decide (s.block.inflight ≠ some g) || s.turnHarmless
  | j + 1, s =>
    (decide (s.block.inflight ≠ some g) || s.turnHarmless) &&
      match step s with
      | .next t => harmlessRun g j t
      | .fault _ | .refused _ => true

theorem harmlessRun_spec {g : Inflight} {n : Nat} {s : State} (h : harmlessRun g n s = true) (j : Nat) (u : State)
    (hj : j ≤ n) (hr : Host.Core.run Sys2Proof.core j s = .next u) (hf : u.block.inflight = some g) :
    u.turnHarmless = true := by
  have now : ∀ {v : State}, (decide (v.block.inflight ≠ some g) || v.turnHarmless) = true →
      v.block.inflight = some g → v.turnHarmless = true := fun hv hg => by simpa [hg] using hv
  induction n generalizing s j with
  | zero =>
    obtain rfl : j = 0 := by omega
    cases hr
    exact now h hf
  | succ n ih =>
    simp only [harmlessRun, Bool.and_eq_true] at h
    cases j with
    | zero => cases hr; exact now h.1 hf
    | succ j =>
      obtain ⟨t, hs, ht⟩ := run_succ_eq_next hr
      rw [hs] at h
      exact ih h.2 j (by omega) ht

/-- A command in flight while its host polls STATUS, another master reads R, and the host polls again. -/
def polling : State :=
  { busy4 .add with
    host := ⟨waitStmts 4 1 ++ [.halt], 0, []⟩
    order := [.host, .host, .access (.read 0x3000 8), .host, .host, .complete] }
theorem witness_completes : ∃ g : Inflight, polling.Inv ∧ polling.block.inflight = some g ∧
    ∀ (j : Nat) (u : State), j ≤ polling.order.length → Host.Core.run Sys2Proof.core j polling = .next u →
      u.block.inflight = some g → u.turnHarmless = true :=
  ⟨⟨.add, 4, 256⟩, ⟨busy4_add_inv.block, rfl⟩, rfl, harmlessRun_spec (by decide)⟩
theorem witness_busy_hazard : ∃ (s : State) (g : Inflight), s.Inv ∧ s.block.inflight = some g ∧
    (3 < s.cfg.n ∧ (0x2018 = 0x1000 + 8 * 3 ∨ 0x2018 = 0x2000 + 8 * 3)) ∧
    (0 < s.cfg.n ∧ (0x1000 = 0x1000 + 8 * 0 ∨ 0x1000 = 0x2000 + 8 * 0)) :=
  ⟨busy4 .add, _, busy4_add_inv, rfl, by decide, by decide⟩
theorem witness_wait : ∃ (s : State) (g : Inflight), s.Inv ∧ s.block.inflight = some g ∧
    s.order = List.replicate 5 .host ++ .complete :: (List.replicate 4 .host ++ []) ∧
    (s.host.program.drop s.host.pos).take 3 = waitStmts 4 1 ∧ findLabelFrom s.host.program 4 0 = some s.host.pos :=
  ⟨{ busy4 .add with
      host := ⟨.wr .cmd (.imm 0x3) :: waitStmts 4 1 ++ [.halt], 1, []⟩
      order := List.replicate 5 .host ++ .complete :: List.replicate 4 .host }, _,
    ⟨busy4_add_inv.block, rfl⟩, rfl, rfl, rfl, rfl⟩
theorem witness_assembled_waits :
    (assembleProgram 2 ([.wait none, .stmt (.label 0)] ++ .wait none :: [.wait (some 3), .rdr 3])).isSome = true ∧
    (assembleProgram 2 ([.ldb 7] ++ .run (.raw 0x9) (some 1) :: [.stmt (.rd .status 5)])).isSome = true ∧
    (assembleProgram 2 ([] ++ .run (.mnemonic (.addm 1024)) none :: [])).isSome = true := by decide

/-! The host -/

/-- A program with each kind of statement of R59. -/
def program : List Stmt :=
  [.wr (.a 0) (.imm 7), .rd .status 1, .label 4, .bnz 1 0x1 4, .bz 1 0x1 4, .halt, .wr (.b 511) (.var 1)]
def hostAt (p : Nat) : State := { idle4 with host := ⟨program, p, []⟩ }

theorem witness_host_accesses :
    ((hostAt 0).host.program[(hostAt 0).host.pos]? = some (.wr (.a 0) (.imm 7)) ∧ (Reg.a 0).inMap = true) ∧
    ((hostAt 6).host.program[(hostAt 6).host.pos]? = some (.wr (.b 511) (.var 1)) ∧ (Reg.b 511).inMap = true) ∧
    ((hostAt 1).host.program[(hostAt 1).host.pos]? = some (.rd .status 1) ∧ Reg.status.inMap = true) := by decide
theorem witness_host_branches :
    (hostAt 2).host.program[(hostAt 2).host.pos]? = some (.label 4) ∧
    (hostAt 3).host.program[(hostAt 3).host.pos]? = some (.bnz 1 0x1 4) ∧
    (hostAt 4).host.program[(hostAt 4).host.pos]? = some (.bz 1 0x1 4) ∧
    findLabelFrom (hostAt 3).host.program 4 0 = some 2 := by decide
theorem witness_host_ends :
    (hostAt 5).host.program[(hostAt 5).host.pos]? = some .halt ∧ (hostAt 7).host.program[(hostAt 7).host.pos]? = none := by
  decide
theorem witness_lda : ∃ s : State, s.Inv ∧ s.block.busy = false ∧ s.host.pos = [Stmt.label 0].length ∧
    s.order = List.replicate s.cfg.n .host ++ [] ∧
    s.host.program = [Stmt.label 0] ++ ldaStmts s.cfg.n 7 ++ [.halt] :=
  ⟨{ idle4 with host := ⟨[Stmt.label 0] ++ ldaStmts 4 7 ++ [.halt], 1, []⟩, order := List.replicate 4 .host },
    ⟨idle4_inv.block, rfl⟩, rfl, rfl, rfl, rfl⟩
theorem witness_ldb : ∃ s : State, s.Inv ∧ s.block.busy = false ∧ s.host.pos = ([] : List Stmt).length ∧
    s.order = List.replicate s.cfg.n .host ++ [.complete] ∧
    s.host.program = [] ++ ldbStmts s.cfg.n 5 ++ [.halt] :=
  ⟨{ idle4 with host := ⟨[] ++ ldbStmts 4 5 ++ [.halt], 0, []⟩, order := List.replicate 4 .host ++ [.complete] },
    ⟨idle4_inv.block, rfl⟩, rfl, rfl, rfl, rfl⟩
theorem witness_rdr : ∃ s : State, s.Inv ∧ s.host.pos = ([] : List Stmt).length ∧
    s.order = List.replicate (s.cfg.n + 1) .host ++ [] ∧ s.host.program = [] ++ rdrStmts s.cfg.n 9 10 ++ [.halt] :=
  ⟨{ idle4 with host := ⟨[] ++ rdrStmts 4 9 10 ++ [.halt], 0, []⟩, order := List.replicate 5 .host },
    ⟨idle4_inv.block, rfl⟩, rfl, rfl, rfl⟩

end Sys2Proof.Tests
end

section
/-! ### The limb count (R1) -/

namespace Sys2Proof

/-- The configurations that cannot be built (R1; the alignment of BASE is R19's). -/
theorem Config.make?_eq_none_iff (n base : Nat) :
    Config.make? n base = none ↔ n = 0 ∨ 512 < n ∨ base % 0x4000 ≠ 0 := by
  unfold Config.make?
  split
  · simp only [reduceCtorEq, false_iff]; omega
  · simp only [true_iff]; omega

namespace Machine

/-- What a turn leaves in A, B and R has N limbs again: a completed command brings N limbs of its own, and a written
limb replaces one that stands there. -/
theorem BlockMove.limb_counts {s : State} {b : Block} (h : BlockMove s b) (hi : s.block.Inv s.cfg) :
    b.a.length = s.cfg.n ∧ b.b.length = s.cfg.n ∧ b.r.length = s.cfg.n := by
  have ha := hi.a_length
  have hb := hi.b_length
  have hr := hi.r_length
  cases h with
  | same | faulted | accepted | scalar => exact ⟨ha, hb, hr⟩
  | reset => exact ⟨List.length_replicate, List.length_replicate, List.length_replicate⟩
  | completed => exact ⟨ha, hb, length_commandLimbs s _⟩
  | limbA => exact ⟨List.length_set.trans ha, hb, hr⟩
  | limbB => exact ⟨ha, List.length_set.trans hb, hr⟩

/-- Settles O4: the bounds are fields of `Config`, and `step_move` says that a step keeps the configuration and makes
one `BlockMove`, each of which keeps the lengths of A, B and R. -/
theorem limbCountIsABuildConstant : Obligations.LimbCountIsABuildConstant := by
  refine ⟨Config.make?_eq_none_iff, fun c => ?_, fun s t h => ?_⟩
  · exact ⟨c.n_pos, c.n_le, rfl, List.length_replicate, List.length_replicate, List.length_replicate⟩
  · obtain ⟨hcfg, hmove⟩ := step_move h
    exact ⟨hcfg, fun hi => hmove.limb_counts hi.block⟩

end Machine

end Sys2Proof
end

section
/-! ### Soft reset and PARAM (R17, R18, R94) -/

namespace Sys2Proof.Machine

/-- A write to CTRL with bit 0 clear does nothing: bits 63:1 are ignored (R18). -/
theorem writeCtrl_clear {v : Word} (h : v.getLsbD 0 = false) (s : State) : writeCtrl v s = s := by
  rw [writeCtrl, h]
  rfl

/-- A write to CTRL with bit 0 set is a soft reset (R18, R94). -/
theorem writeCtrl_set {v : Word} (h : v.getLsbD 0 = true) (s : State) : writeCtrl v s = resetBlock s := by
  rw [writeCtrl, if_pos h, softReset_eq]

theorem step_withWrite_ctrl (s : State) (v : Word) (rest : List Event) :
    step (s.withWrite 0x8 v rest) = .next (writeCtrl v { s with order := rest }) := by
  rw [step_withWrite (by decide) (by decide), windowWrite_ctrl]

/-- An admitted read answers the window's data and changes nothing else (R32). -/
theorem step_withRead {off : Nat} (h : off < 0x4000) (h8 : off % 8 = 0) (s : State) (rest : List Event) :
    step (s.withAccess (.read (s.cfg.base + off) 8) rest) =
      .next { s with order := rest, lastRead := some (windowRead s.cfg s.block off) } :=
  portAccess_read (s := { s with order := rest }) h h8

/-- A CMD write in FAULTED is ignored (R55). -/
theorem issue_of_fault {s : State} (h : s.block.fault = true) (w : Word) : issue w s = .next s := by
  simp [issue, h]

/-- With BUSY = 0 an operand write only sets the register (R33). -/
theorem writeOperand_idle {s : State} (h : s.block.busy = false) (off : Nat) (v : Word) (put : Block → Block) :
    writeOperand off v put s = { s with block := put s.block } := by
  simp [writeOperand, h]

/-- In FAULTED an admitted write at any offset but CTRL's leaves FAULT set (R84): a CMD write is ignored, an operand
write sets its register alone, and the other rows of R33 have no effect. -/
theorem windowWrite_keeps_fault {s : State} {off : Nat} (hf : s.block.fault = true) (hb : s.block.busy = false)
    (hoff : off ≠ 0x8) (v : Word) : ∃ t, windowWrite off v s = .next t ∧ t.block.fault = true := by
  unfold windowWrite
  rcases hd : decodeOffset s.cfg off with _ | x
  · exact ⟨s, rfl, hf⟩
  · cases x with
    | param | status | faddr | fdata | r i => exact ⟨s, rfl, hf⟩
    | ctrl => exact absurd (decodeOffset_eq_some_iff.mp hd).1 hoff
    | cmd => exact ⟨s, issue_of_fault hf v, hf⟩
    | scalar | a i | b i => exact ⟨_, congrArg Host.Outcome.next (writeOperand_idle hb off v _), hf⟩

/-- Settles O2: a CTRL write is `writeCtrl`, so the reset or nothing, by its bit 0; a read changes no state of the
block; and every other write leaves FAULT set (`windowWrite_keeps_fault`). -/
theorem softResetIsReset : Obligations.SoftResetIsReset := by
  intro s v rest
  refine ⟨fun hv => ?_, fun hv => ?_, step_withRead (by decide) (by decide) s rest,
    fun hf hb off ho h8 => ⟨fun hne => ?_, ?_⟩⟩
  · rw [step_withWrite_ctrl, writeCtrl_set hv]
    exact ⟨rfl, rfl⟩
  · rw [step_withWrite_ctrl, writeCtrl_clear hv]
    rfl
  · rw [step_withWrite ho h8]
    exact windowWrite_keeps_fault (s := { s with order := rest }) hf hb hne v
  · exact ⟨_, step_withRead ho h8 s rest, hf⟩

/-- N fits in its field, so no bit of the three fields of PARAM is lost (R17). -/
theorem paramWord_toNat (c : Config) : (paramWord c).toNat = c.n + 64 * 2 ^ 16 + 1 * 2 ^ 24 := by
  have hn := c.n_le
  rw [paramWord, BitVec.toNat_ofNat, Nat.mod_eq_of_lt (by omega)]

/-- A field of PARAM is the digits of its value there. -/
theorem paramWord_field {c : Config} {start len d : Nat}
    (h : (c.n + 64 * 2 ^ 16 + 1 * 2 ^ 24) / 2 ^ start % 2 ^ len = d % 2 ^ len) :
    (paramWord c).extractLsb' start len = BitVec.ofNat len d := by
  rw [← BitVec.toNat_inj, BitVec.extractLsb'_toNat, Nat.shiftRight_eq_div_pow, paramWord_toNat, h,
    BitVec.toNat_ofNat]

theorem windowRead_param (c : Config) (b : Block) : windowRead c b 0x0 = paramWord c := rfl

theorem windowWrite_param (v : Word) (s : State) : windowWrite 0x0 v s = .next s := rfl

/-- Settles O51: a read at 0x0 is `paramWord`, and `paramWord_field` gives its four fields; a write there has no
effect. -/
theorem paramReadsTheConfiguration : Obligations.ParamReadsTheConfiguration := by
  intro s rest v
  have hn := s.cfg.n_le
  rw [windowRead_param]
  refine ⟨paramWord_field (by omega), paramWord_field (d := 64) (by omega), paramWord_field (d := 1) (by omega),
    paramWord_field (d := 0) (by omega), fun h4 => ?_, ?_⟩
  · rw [paramWord, h4]
    rfl
  · rw [step_withWrite (by decide) (by decide), windowWrite_param]
    rfl

end Sys2Proof.Machine
end

section
/-! ### The register window as the map lays it out (R29, R31, R32, R33) -/

namespace Sys2Proof.Machine

/-! #### Which accesses are admitted -/

/-- An access that starts in the window, of another size than 8 bytes or at an offset that is no multiple of 8, is a
bus error (R29). -/
theorem portAccess_misaligned {x : Access} {s : State} (hlo : s.cfg.base ≤ x.addr)
    (hhi : x.addr < s.cfg.base + 0x4000) (h : x.size ≠ 8 ∨ (x.addr - s.cfg.base) % 8 ≠ 0) :
    portAccess x s = .refused .busError := by
  have hreach : reachesWindow s.cfg x = true := decide_eq_true (by omega)
  have hadm : admitted s.cfg x = false := decide_eq_false (by omega)
  simp [portAccess, hreach, hadm]

theorem exec_next (i : Instr) (s : State) : ∃ t, exec i s = .next t := by
  obtain ⟨t, ht, -⟩ := runCommand_cases i (commandCheck s i) (commandLimbs s i) s
  exact ⟨t, (exec_eq_runCommand i s).trans ht⟩

theorem issue_next (w : Word) (s : State) : ∃ t, issue w s = .next t := by
  obtain ⟨-, h⟩ | ⟨_, h⟩ | ⟨-, i, -, h⟩ := issue_cases w s
  · exact ⟨_, h⟩
  · exact ⟨_, h⟩
  · exact h ▸ exec_next i s

/-- An admitted write is never refused and never stops the machine. -/
theorem windowWrite_next (off : Nat) (v : Word) (s : State) : ∃ t, windowWrite off v s = .next t := by
  obtain h | h | h | ⟨_, h, -⟩ := windowWrite_cases off v s
  · exact ⟨_, h⟩
  · exact ⟨_, h⟩
  · exact h ▸ issue_next v s
  · exact ⟨_, h⟩

/-- Settles O47: any other access is a bus error (`portAccess_misaligned`); an admitted one is a read, which answers,
or a write, which does by `windowWrite_next`. -/
theorem onlyAlignedWholeRegisterAccesses : Obligations.OnlyAlignedWholeRegisterAccesses := by
  intro s rest x hlo hhi
  refine ⟨portAccess_misaligned (s := { s with order := rest }) hlo hhi, fun h8 hoff => ?_⟩
  obtain ⟨off, haddr⟩ := Nat.exists_eq_add_of_le hlo
  have ho : off < 0x4000 := by omega
  have ho8 : off % 8 = 0 := by omega
  cases x with
  | read addr n =>
    obtain ⟨rfl, rfl⟩ : addr = s.cfg.base + off ∧ n = 8 := ⟨haddr, h8⟩
    exact ⟨_, step_withRead ho ho8 s rest⟩
  | write addr n v =>
    obtain ⟨rfl, rfl⟩ : addr = s.cfg.base + off ∧ n = 8 := ⟨haddr, h8⟩
    obtain ⟨t, ht⟩ := windowWrite_next off v { s with order := rest }
    exact ⟨t, (step_withWrite ho ho8).trans ht⟩

/-! #### Reads -/

/-- An offset past FDATA that is no limb of A, B or R is reserved (R19). -/
theorem decodeOffset_reserved {c : Config} {off : Nat} (hoff : 0x38 ≤ off)
    (h : ∀ i, i < c.n → off ≠ 0x1000 + 8 * i ∧ off ≠ 0x2000 + 8 * i ∧ off ≠ 0x3000 + 8 * i) :
    decodeOffset c off = none := by
  refine decodeOffset_eq_none_iff.mpr fun x hx => ?_
  cases x with
  | param | ctrl | status | cmd | scalar | faddr | fdata =>
    simp only [Reg.offset]
    omega
  | a i => exact (h i hx).1
  | b i => exact (h i hx).2.1
  | r i => exact (h i hx).2.2

/-- A read at a register's offset returns the register (R32). -/
theorem windowRead_offset {c : Config} {x : Reg} (h : x.present c.n) (b : Block) :
    windowRead c b x.offset = readReg c b x := by
  rw [windowRead, decodeOffset_offset h]

/-- A read at a reserved offset returns 0 (R32). -/
theorem windowRead_reserved {c : Config} {off : Nat} (h : decodeOffset c off = none) (b : Block) :
    windowRead c b off = 0 := by
  rw [windowRead, h]

/-- Settles O44: an admitted read answers `windowRead` and changes nothing else (`step_withRead`), and `windowRead` is
the register at a register's offset and 0 at a reserved one. -/
theorem readsReturnTheRegisterMap : Obligations.ReadsReturnTheRegisterMap := by
  intro s rest rd ans hrd hans
  have hread : ∀ {off}, off < 0x4000 → off % 8 = 0 → rd off = ans (windowRead s.cfg s.block off) := fun ho h8 => by
    rw [hrd, hans, step_withRead ho h8]
  have hreg : ∀ x : Reg, x.present s.cfg.n → rd x.offset = ans (readReg s.cfg s.block x) := fun x hx => by
    rw [hread (offset_lt hx).1 (offset_lt hx).2, windowRead_offset hx]
  refine ⟨hreg .param trivial, hreg .ctrl trivial, hreg .status trivial, hreg .cmd trivial, hreg .scalar trivial,
    hreg .faddr trivial, hreg .fdata trivial, fun i hi => ⟨hreg (.a i) hi, hreg (.b i) hi, hreg (.r i) hi⟩,
    fun off hlo hhi h8 hne => ?_⟩
  rw [hread hhi h8, windowRead_reserved (decodeOffset_reserved hlo hne)]

/-! #### Writes -/

/-- The block a write to an operand register leaves: a busy violation (R79), or the register set (R33). -/
theorem writeOperand_eq_setBlock (off : Nat) (v : Word) (put : Block → Block) (s : State) (rest : List Event) :
    writeOperand off v put { s with order := rest } =
      s.setBlock (if s.block.busy = true then s.block.faulted 4 (BitVec.ofNat 64 off) v else put s.block) rest := by
  unfold writeOperand
  split <;> rfl

/-- The block a write to CTRL leaves: the reset block or the block as it stands, by bit 0 (R18, R33). -/
theorem writeCtrl_eq_setBlock (v : Word) (s : State) (rest : List Event) :
    writeCtrl v { s with order := rest } =
      s.setBlock (if v.getLsbD 0 = true then Block.reset s.cfg else s.block) rest := by
  unfold writeCtrl
  split <;> rfl

/-- A write to R has no effect: no host write changes R (R12, R33). -/
theorem windowWrite_r {s : State} {i : Nat} (h : i < s.cfg.n) (v : Word) :
    windowWrite (0x3000 + 8 * i) v s = .next s := by
  have hd : decodeOffset s.cfg (0x3000 + 8 * i) = some (.r i) := decodeOffset_offset (x := .r i) h
  rw [windowWrite, hd]

/-- A write at a reserved offset has no effect (R33). -/
theorem windowWrite_reserved {s : State} {off : Nat} (h : decodeOffset s.cfg off = none) (v : Word) :
    windowWrite off v s = .next s := by
  rw [windowWrite, h]

/-- A write to PARAM, STATUS, FADDR or FDATA has no effect (R33). -/
theorem windowWrite_readOnly {off : Nat} (h : off = 0x0 ∨ off = 0x10 ∨ off = 0x28 ∨ off = 0x30) (v : Word)
    (s : State) : windowWrite off v s = .next s := by
  rcases h with rfl | rfl | rfl | rfl <;> rfl

/-- Settles O45: an admitted write is `windowWrite` (`step_withWrite`), which has one equation per row of the table
of R33. -/
theorem writesFollowTheDecode : Obligations.WritesFollowTheDecode := by
  intro s rest v
  have hn := s.cfg.n_le
  refine ⟨?_, ?_, ?_, fun i hi => ⟨?_, ?_, ?_⟩, fun off hoff => ?_, fun off hlo hhi h8 hne => ?_⟩
  · rw [step_withWrite_ctrl, writeCtrl_eq_setBlock]
  · rw [step_withWrite (by decide) (by decide), windowWrite_cmd]
  · rw [step_withWrite (by decide) (by decide), windowWrite_scalar, writeOperand_eq_setBlock]
    rfl
  · rw [step_withWrite (by omega) (by omega), windowWrite_a (s := { s with order := rest }) hi,
      writeOperand_eq_setBlock]
  · rw [step_withWrite (by omega) (by omega), windowWrite_b (s := { s with order := rest }) hi,
      writeOperand_eq_setBlock]
  · rw [step_withWrite (by omega) (by omega), windowWrite_r (s := { s with order := rest }) hi]
    rfl
  · rw [step_withWrite (by omega) (by omega), windowWrite_readOnly hoff]
    rfl
  · rw [step_withWrite hhi h8, windowWrite_reserved (s := { s with order := rest }) (decodeOffset_reserved hlo hne)]
    rfl

/-! #### The byte image -/

/-- Limb i of a vector is digit i of its value in base 2^64, and 0 past its end (R7). -/
theorem toNat_getD_eq (xs : List Word) (i : Nat) : (xs.getD i 0).toNat = val xs / 2 ^ (64 * i) % 2 ^ 64 := by
  induction xs generalizing i with
  | nil => simp
  | cons x xs ih =>
    have hx := x.isLt
    cases i with
    | zero =>
      rw [List.getD_cons_zero, val_cons, Nat.mul_zero, pow_zero, Nat.div_one]
      omega
    | succ i =>
      have htail : (x.toNat + 2 ^ 64 * val xs) / 2 ^ 64 = val xs := by omega
      rw [List.getD_cons_succ, ih, val_cons, pow_limbs_succ, ← Nat.div_div_eq_div_mul, htail]

/-- Byte k of limb i of a vector is byte 8·i + k of its value (R30, R31). -/
theorem toNat_wordByte_getD (xs : List Word) (i : Nat) {k : Nat} (hk : k < 8) :
    (wordByte (xs.getD i 0) k).toNat = val xs / 256 ^ (8 * i + k) % 256 := by
  have hsplit : (2 : Nat) ^ 64 = 2 ^ (8 * k) * (256 * 2 ^ (56 - 8 * k)) := by
    rw [show (256 : Nat) = 2 ^ 8 from rfl, ← pow_add, ← pow_add]
    congr 1
    omega
  have hpow : (256 : Nat) ^ (8 * i + k) = 2 ^ (64 * i) * 2 ^ (8 * k) := by
    rw [show (256 : Nat) = 2 ^ 8 from rfl, ← pow_mul, ← pow_add]
    congr 1
    omega
  rw [wordByte, BitVec.extractLsb'_toNat, Nat.shiftRight_eq_div_pow, toNat_getD_eq, hsplit,
    Nat.mod_mul_right_div_self, Nat.mod_mul_right_mod, Nat.div_div_eq_div_mul, ← hpow]

/-- Where the window holds the limbs of a vector from `base` on, its bytes from there are those of the value (R31). -/
theorem windowByte_eq_val_byte {c : Config} {b : Block} {base j : Nat} {xs : List Word} (hb : base % 8 = 0)
    (h : windowRead c b (base + 8 * (j / 8)) = xs.getD (j / 8) 0) :
    (windowByte c b (base + j)).toNat = val xs / 256 ^ j % 256 := by
  have haddr : base + j - (base + j) % 8 = base + 8 * (j / 8) := by omega
  have hbyte : (base + j) % 8 = j % 8 := by omega
  rw [windowByte, haddr, hbyte, h, toNat_wordByte_getD xs _ (Nat.mod_lt j (by decide)), Nat.div_add_mod]

/-- Settles O49: `windowRead_offset` gives the limbs, and `windowByte_eq_val_byte` the bytes from the limbs. -/
theorem windowIsTheLittleEndianImage : Obligations.WindowIsTheLittleEndianImage := by
  intro s j _ hj
  have hi : j / 8 < s.cfg.n := by omega
  have ha := windowRead_offset (x := .a (j / 8)) hi s.block
  have hb := windowRead_offset (x := .b (j / 8)) hi s.block
  have hr := windowRead_offset (x := .r (j / 8)) hi s.block
  exact ⟨ha, hb, hr, windowByte_eq_val_byte (by decide) ha, windowByte_eq_val_byte (by decide) hb,
    windowByte_eq_val_byte (by decide) hr⟩

end Sys2Proof.Machine
end

section
/-! ### The CMD word: its fields, its row, and what decodes (R48, R51 to R54) -/

namespace Sys2Proof

/-! #### A word is its six fields -/

/-- The six fields of R48 cover the word. -/
theorem word_eq_iff_fields (w v : Word) :
    w = v ↔ opcField w = opcField v ∧ rsv0Field w = rsv0Field v ∧ mm1Field w = mm1Field v ∧
      rsv1Field w = rsv1Field v ∧ bitsizeField w = bitsizeField v ∧ rsv2Field w = rsv2Field v := by
  have hw := w.isLt
  have hv := v.isLt
  simp only [← BitVec.toNat_inj, opcField_toNat, rsv0Field_toNat, mm1Field_toNat, rsv1Field_toNat,
    bitsizeField_toNat, rsv2Field_toNat]
  omega

@[simp] theorem opcField_and (w v : Word) : opcField (w &&& v) = opcField w &&& opcField v :=
  BitVec.extractLsb'_and
@[simp] theorem rsv0Field_and (w v : Word) : rsv0Field (w &&& v) = rsv0Field w &&& rsv0Field v :=
  BitVec.extractLsb'_and
@[simp] theorem mm1Field_and (w v : Word) : mm1Field (w &&& v) = mm1Field w &&& mm1Field v :=
  BitVec.extractLsb'_and
@[simp] theorem rsv1Field_and (w v : Word) : rsv1Field (w &&& v) = rsv1Field w &&& rsv1Field v :=
  BitVec.extractLsb'_and
@[simp] theorem bitsizeField_and (w v : Word) : bitsizeField (w &&& v) = bitsizeField w &&& bitsizeField v :=
  BitVec.extractLsb'_and
@[simp] theorem rsv2Field_and (w v : Word) : rsv2Field (w &&& v) = rsv2Field w &&& rsv2Field v :=
  BitVec.extractLsb'_and

/-- The fields of a word of a command (R48, R51): its opcode, and 0 in every reserved and every unused field. -/
structure Op.FieldsOf (op : Op) (w : Word) : Prop where
  opc : opcField w = op.code
  rsv0 : rsv0Field w = 0
  mm1 : op.usesMM1 = false → mm1Field w = 0
  rsv1 : rsv1Field w = 0
  bitsize : op.usesBitsize = false → bitsizeField w = 0
  rsv2 : rsv2Field w = 0

/-! #### The rows of R51 -/

/-- A row's mask covers every field but the one its command uses. -/
theorem opcodeTable_mask : ∀ row ∈ opcodeTable,
    opcField row.mask = BitVec.allOnes 4 ∧ rsv0Field row.mask = BitVec.allOnes 12 ∧
    mm1Field row.mask = (if row.op.usesMM1 then 0 else BitVec.allOnes 10) ∧ rsv1Field row.mask = BitVec.allOnes 6 ∧
    bitsizeField row.mask = (if row.op.usesBitsize then 0 else BitVec.allOnes 16) ∧
    rsv2Field row.mask = BitVec.allOnes 16 := by decide

/-- A row's match is its command's opcode, and 0 in every other field. -/
theorem opcodeTable_match : ∀ row ∈ opcodeTable,
    opcField row.matchBits = row.op.code ∧ rsv0Field row.matchBits = 0 ∧ mm1Field row.matchBits = 0 ∧
    rsv1Field row.matchBits = 0 ∧ bitsizeField row.matchBits = 0 ∧ rsv2Field row.matchBits = 0 := by decide

theorem opcodeTable_op_inj : ∀ row ∈ opcodeTable, ∀ row' ∈ opcodeTable, row.op = row'.op → row = row' := by decide

theorem exists_row_of_op (op : Op) : ∃ row ∈ opcodeTable, row.op = op := by
  cases op <;> decide

/-- Under a mask that covers a field unless it is used, the field reads 0 exactly when it is used or is 0. -/
theorem and_mask_unless_eq_zero_iff {n : Nat} (used : Bool) (x : BitVec n) :
    x &&& (if used then 0 else BitVec.allOnes n) = 0 ↔ (used = false → x = 0) := by
  cases used <;> simp

/-- A word matches a row exactly when it has the fields of the row's command (R51). -/
theorem matches_iff_fieldsOf {row : OpcodeRow} (h : row ∈ opcodeTable) (w : Word) :
    row.Matches w ↔ row.op.FieldsOf w := by
  obtain ⟨hk0, hk1, hk2, hk3, hk4, hk5⟩ := opcodeTable_mask row h
  obtain ⟨hm0, hm1, hm2, hm3, hm4, hm5⟩ := opcodeTable_match row h
  simp only [OpcodeRow.Matches, word_eq_iff_fields, opcField_and, rsv0Field_and, mm1Field_and, rsv1Field_and,
    bitsizeField_and, rsv2Field_and, hk0, hk1, hk2, hk3, hk4, hk5, hm0, hm1, hm2, hm3, hm4, hm5, BitVec.and_allOnes,
    and_mask_unless_eq_zero_iff]
  exact ⟨fun ⟨h0, h1, h2, h3, h4, h5⟩ => ⟨h0, h1, h2, h3, h4, h5⟩,
    fun hf => ⟨hf.opc, hf.rsv0, hf.mm1, hf.rsv1, hf.bitsize, hf.rsv2⟩⟩

/-- Every command has its row, so the words that match no row are those with the fields of no command. -/
theorem forall_not_matches_iff {w : Word} :
    (∀ row ∈ opcodeTable, ¬row.Matches w) ↔ ∀ op : Op, ¬op.FieldsOf w := by
  constructor
  · intro h op hf
    obtain ⟨row, hr, rfl⟩ := exists_row_of_op op
    exact h row hr ((matches_iff_fieldsOf hr w).mpr hf)
  · intro h row hr hm
    exact h row.op ((matches_iff_fieldsOf hr w).mp hm)

/-! #### The decoder (R54) -/

theorem Op.ofCode?_eq_some_iff {c : BitVec 4} {op : Op} : Op.ofCode? c = some op ↔ c = op.code := by
  revert c
  cases op <;> decide

/-- The reserved opcodes are 0x0 and 0x9 to 0xF (R51). -/
theorem Op.exists_code_eq_iff {c : BitVec 4} : (∃ op : Op, c = op.code) ↔ c.toNat ≠ 0 ∧ c.toNat < 9 := by
  simp only [← Op.ofCode?_eq_some_iff, ← Option.isSome_iff_exists]
  revert c
  decide

/-- ADDM and MULM are the opcodes 4 and 6 (R51). -/
theorem Op.usesMM1_eq_false_iff (op : Op) : op.usesMM1 = false ↔ op.code ≠ 4 ∧ op.code ≠ 6 := by
  cases op <;> decide

/-- ADDMOD and MULMOD are the opcodes 7 and 8 (R51). -/
theorem Op.usesBitsize_eq_false_iff (op : Op) : op.usesBitsize = false ↔ op.code ≠ 7 ∧ op.code ≠ 8 := by
  cases op <;> decide

@[simp] theorem Op.op_instr (op : Op) (m k : Nat) : (op.instr m k).op = op := by
  cases op <;> rfl
theorem Op.limbCount_instr (op : Op) (m k n : Nat) :
    (op.instr m k).limbCount n = if op.usesMM1 then m else n := by
  cases op <;> rfl
theorem Op.bitWidth_instr (op : Op) (m k n : Nat) :
    (op.instr m k).bitWidth n = if op.usesBitsize then k else 64 * n := by
  cases op <;> rfl

theorem Op.wellFormed_instr (op : Op) {m k : Nat} (hm : 1 ≤ m ∧ m ≤ 1024) (hk : k ≤ 65535) :
    (op.instr m k).WellFormed := by
  cases op with
  | zero | fromsc | add | mul => rfl
  | addm | mulm => exact decide_eq_true hm
  | addmod | mulmod => exact decide_eq_true hk

/-- The decoder answers a command exactly on the words with that command's fields, with M = MM1 + 1 and
k = BITSIZE. -/
theorem decode_eq_ok_iff {w : Word} {i : Instr} :
    decode w = .ok i ↔
      ∃ op : Op, op.FieldsOf w ∧ i = op.instr ((mm1Field w).toNat + 1) (bitsizeField w).toNat := by
  constructor
  · intro h
    unfold decode at h
    split_ifs at h with hrsv
    split at h
    · cases h
    next op hop =>
    split_ifs at h with hmm1 hbits
    cases h
    push Not at hrsv hmm1 hbits
    obtain ⟨h2, h1, h0⟩ := hrsv
    exact ⟨op, ⟨Op.ofCode?_eq_some_iff.mp hop, h0, hmm1, h1, hbits, h2⟩, rfl⟩
  · rintro ⟨op, ⟨hopc, h0, hmm1, h1, hbits, h2⟩, rfl⟩
    have hop : Op.ofCode? (opcField w) = some op := Op.ofCode?_eq_some_iff.mpr hopc
    have hrsv : ¬(rsv2Field w ≠ 0 ∨ rsv1Field w ≠ 0 ∨ rsv0Field w ≠ 0) := by simp [h0, h1, h2]
    rw [decode, if_neg hrsv, hop]
    exact (if_neg fun ⟨hu, hne⟩ => hne (hmm1 hu)).trans (if_neg fun ⟨hu, hne⟩ => hne (hbits hu))

/-- Some command with opcode `op` decodes exactly from the words with its fields. -/
theorem exists_decode_op_iff {w : Word} {op : Op} : (∃ i, decode w = .ok i ∧ i.op = op) ↔ op.FieldsOf w := by
  constructor
  · rintro ⟨i, hi, rfl⟩
    obtain ⟨op, hf, rfl⟩ := decode_eq_ok_iff.mp hi
    exact (op.op_instr _ _).symm ▸ hf
  · intro hf
    exact ⟨_, decode_eq_ok_iff.mpr ⟨op, hf, rfl⟩, op.op_instr _ _⟩

/-- The decoder rejects exactly the words with the fields of no command. -/
theorem exists_decode_error_iff {w : Word} : (∃ e, decode w = .error e) ↔ ∀ op : Op, ¬op.FieldsOf w := by
  simp only [← exists_decode_op_iff]
  rcases decode w with e | i <;> simp

/-- The fields of an encoded command, for every command at once. -/
theorem encodedFields (i : Instr) : Laws.EncodedFields.Statement i := by
  cases i with
  | zero => exact Laws.EncodedFields.zero
  | fromsc => exact Laws.EncodedFields.fromsc
  | add => exact Laws.EncodedFields.add
  | addm m => exact Laws.EncodedFields.addm m
  | mul => exact Laws.EncodedFields.mul
  | mulm m => exact Laws.EncodedFields.mulm m
  | addmod k => exact Laws.EncodedFields.addmod k
  | mulmod k => exact Laws.EncodedFields.mulmod k

theorem wellFormed_of_decode {w : Word} {i : Instr} (h : decode w = .ok i) : i.WellFormed := by
  obtain ⟨op, -, rfl⟩ := decode_eq_ok_iff.mp h
  have hmm1 := (mm1Field w).isLt
  have hbits := (bitsizeField w).isLt
  exact op.wellFormed_instr (by omega) (by omega)

/-- A legal word is the encoding of its command: both have the same six fields. -/
theorem encode_of_decode {w : Word} {i : Instr} (h : decode w = .ok i) : encode i = w := by
  obtain ⟨eopc, emm1, ebits, e0, e1, e2⟩ := encodedFields i (wellFormed_of_decode h)
  obtain ⟨op, hf, rfl⟩ := decode_eq_ok_iff.mp h
  rw [Op.op_instr] at eopc emm1 ebits
  rw [Op.limbCount_instr] at emm1
  rw [Op.bitWidth_instr] at ebits
  rw [word_eq_iff_fields]
  refine ⟨eopc.trans hf.opc.symm, e0.trans hf.rsv0.symm, BitVec.eq_of_toNat_eq ?_, e1.trans hf.rsv1.symm,
    BitVec.eq_of_toNat_eq ?_, e2.trans hf.rsv2.symm⟩
  · rw [emm1]
    cases hu : op.usesMM1 with
    | false => rw [hf.mm1 hu]; rfl
    | true => rfl
  · rw [ebits]
    cases hu : op.usesBitsize with
    | false => rw [hf.bitsize hu]; rfl
    | true => rfl

/-- Settles O10: a word matches a row exactly when it has the fields of the row's command (`matches_iff_fieldsOf`),
which are what the decoder asks for (`exists_decode_op_iff`); the command is one, so the row is. -/
theorem decodeAgreesWithMatchAndMask : Obligations.DecodeAgreesWithMatchAndMask := by
  intro w
  have hrow : ∀ row ∈ opcodeTable, row.Matches w ↔ ∃ i, decode w = .ok i ∧ i.op = row.op := fun row hr => by
    rw [matches_iff_fieldsOf hr, exists_decode_op_iff]
  refine ⟨hrow, fun row hr row' hr' hm hm' => opcodeTable_op_inj row hr row' hr' ?_⟩
  obtain ⟨i, hi, hop⟩ := (hrow row hr).mp hm
  obtain ⟨j, hj, hop'⟩ := (hrow row' hr').mp hm'
  obtain rfl : i = j := Except.ok.inj (hi.symm.trans hj)
  exact hop.symm.trans hop'

end Sys2Proof
end

section
/-! ### Issue and the illegal words (R52, R53, R55, R56, R77, R81) -/

namespace Sys2Proof.Machine

/-! #### Issue -/

/-- The checks of a command at Issue, in the order of R55. -/
theorem commandCheck_eq (s : State) (i : Instr) :
    commandCheck s i =
      if s.cfg.n < i.limbCount s.cfg.n then some .sizeOrder
      else if 64 * s.cfg.n < i.bitWidth s.cfg.n then some .bitsizeRange else none := by
  cases i with
  | zero | fromsc | add | mul => simp [commandCheck, Instr.limbCount, Instr.bitWidth]
  | addm m | mulm m => simp [commandCheck, sizeCheck, Instr.limbCount, Instr.bitWidth]
  | addmod k | mulmod k => exact (if_neg (lt_irrefl s.cfg.n)).symm

/-- What exec does with a command that is not in flight, in a block that can take one (R55). -/
theorem exec_ready {s : State} (h : s.Ready) (i : Instr) :
    exec i s = .next
      (if s.cfg.n < i.limbCount s.cfg.n then raiseFault .sizeOrder cmdOffset (encode i) s
       else if 64 * s.cfg.n < i.bitWidth s.cfg.n then raiseFault .bitsizeRange cmdOffset (encode i) s
       else accept i s) := by
  rw [exec_eq_runCommand, commandCheck_eq]
  split_ifs
  · exact runCommand_violates h
  · exact runCommand_violates h
  · exact runCommand_accepts h

/-- A legal command passes its checks and is accepted (R55, R56). -/
theorem exec_accepts {s : State} {i : Instr} (h : s.Ready) (hl : i.Legal s.cfg) : exec i s = .next (accept i s) := by
  obtain ⟨-, hm, hk⟩ := hl
  rw [exec_eq_runCommand, (commandCheck_eq_none_iff s i).mpr ⟨hm, hk⟩]
  exact runCommand_accepts h

/-- A CMD write while BUSY = 1 is a busy violation (R55, R79). -/
theorem issue_of_busy {s : State} (hf : s.block.fault = false) (hb : s.block.busy = true) (w : Word) :
    issue w s = .next (raiseFault .busyViolation cmdOffset w s) := by
  simp [issue, hf, hb]

/-- A block that can take a command faults on a word that decodes to none (R55, R77). -/
theorem issue_of_illegal {s : State} (h : s.Ready) {w : Word} {e : Illegal} (hd : decode w = .error e) :
    issue w s = .next (raiseFault .illegalCommand cmdOffset w s) := by
  simp [issue, h.1, h.2, hd]

/-- A block that can take a command runs the decoded command's own checks and `Accept` (R55). -/
theorem issue_of_legal {s : State} (h : s.Ready) {w : Word} {i : Instr} (hd : decode w = .ok i) :
    issue w s = exec i s := by
  simp [issue, h.1, h.2, hd]

theorem step_withWrite_cmd (s : State) (w : Word) (rest : List Event) :
    step (s.withWrite 0x18 w rest) = issue w { s with order := rest } := by
  rw [step_withWrite (by decide) (by decide), windowWrite_cmd]

/-- Settles O22: the write is `Issue` of the word, which has one equation per check of R55. The checks of the command
are those of `exec_ready`, and the word FDATA takes there, that of the command, is w itself (`encode_of_decode`). -/
theorem issuePriority : Obligations.IssuePriority := by
  intro s rest w
  rw [step_withWrite_cmd]
  split_ifs with hf hb
  · exact issue_of_fault (s := { s with order := rest }) hf w
  · exact issue_of_busy (s := { s with order := rest }) (Bool.eq_false_of_not_eq_true hf) hb w
  · have hready : State.Ready { s with order := rest } :=
      ⟨Bool.eq_false_of_not_eq_true hb, Bool.eq_false_of_not_eq_true hf⟩
    cases hd : decode w with
    | error e => exact issue_of_illegal hready hd
    | ok i =>
      rw [issue_of_legal hready hd, exec_ready hready, encode_of_decode hd]
      dsimp only
      split_ifs <;> rfl

/-- Writing a word that decodes to no command raises ILLEGAL_COMMAND (R77). -/
theorem illegalOutcome_of_decode_error {w : Word} {e : Illegal} (h : decode w = .error e) : IllegalOutcome w := by
  intro s rest hready
  rw [step_withWrite_cmd, issue_of_illegal (s := { s with order := rest }) hready h]
  rfl

/-- The datapath's turn completes the running command (R58). -/
theorem step_complete_of_running {s : State} {i : Instr} (h : s.Running i) (rest : List Event) :
    step { s with order := .complete :: rest } =
      .next (complete (commandLimbs { s with order := rest } i) { s with order := rest }) := by
  have hstep := completeTurn_inflight (s := { s with order := rest }) h.1 h.2
  rwa [Inflight.instr_mk] at hstep

/-- Settles O18: a legal command passes its checks (`exec_accepts`), and what `accept` leaves is running
(`step_complete_of_running`). -/
theorem acceptSetsInflightAndBusy : Obligations.AcceptSetsInflightAndBusy := by
  rintro i s t rest hready hlegal rfl
  exact ⟨exec_accepts hready hlegal, _, step_complete_of_running (s := accept i s) ⟨rfl, rfl⟩ rest, rfl⟩

/-! #### The illegal words -/

/-- The list of R53 is what no command allows: an illegal word is one that has the fields of no command. -/
theorem illegalFields_iff {w : Word} : IllegalFields w ↔ ∀ op : Op, ¬op.FieldsOf w := by
  constructor
  · intro h op hf
    obtain h2 | h1 | h0 | hz | h9 | ⟨hm, h4, h6⟩ | ⟨hb, h7, h8⟩ := h
    · exact h2 hf.rsv2
    · exact h1 hf.rsv1
    · exact h0 hf.rsv0
    · exact (Op.exists_code_eq_iff.mp ⟨op, hf.opc⟩).1 hz
    · exact (Op.exists_code_eq_iff.mp ⟨op, hf.opc⟩).2.not_ge h9
    · exact hm (hf.mm1 (op.usesMM1_eq_false_iff.mpr ⟨hf.opc ▸ h4, hf.opc ▸ h6⟩))
    · exact hb (hf.bitsize (op.usesBitsize_eq_false_iff.mpr ⟨hf.opc ▸ h7, hf.opc ▸ h8⟩))
  · intro h
    by_contra hn
    simp only [IllegalFields, not_or, not_and, not_not, not_le, ne_eq] at hn
    obtain ⟨h2, h1, h0, hz, h9, hm, hb⟩ := hn
    obtain ⟨op, hopc⟩ := Op.exists_code_eq_iff.mpr ⟨hz, h9⟩
    have hmm1 : op.usesMM1 = false → mm1Field w = 0 := fun hu => by
      obtain ⟨h4, h6⟩ := op.usesMM1_eq_false_iff.mp hu
      by_contra hne
      exact h6 (hopc ▸ hm hne (hopc.symm ▸ h4))
    have hbits : op.usesBitsize = false → bitsizeField w = 0 := fun hu => by
      obtain ⟨h7, h8⟩ := op.usesBitsize_eq_false_iff.mp hu
      by_contra hne
      exact h8 (hopc ▸ hb hne (hopc.symm ▸ h7))
    exact h op ⟨hopc, h0, hmm1, h1, hbits, h2⟩

/-- Settles O11: the illegal words have the fields of no command (`illegalFields_iff`), so they decode to none
(`exists_decode_error_iff`) and match no row (`forall_not_matches_iff`), and a write of one is an illegal command. -/
theorem illegalWordsAreExactly : Obligations.IllegalWordsAreExactly := by
  intro w
  have herr : ∀ {v : Word}, IllegalFields v ↔ ∃ e, decode v = .error e :=
    illegalFields_iff.trans exists_decode_error_iff.symm
  have hout : ∀ {v : Word}, IllegalFields v → IllegalOutcome v := fun hv =>
    (herr.mp hv).elim fun _ => illegalOutcome_of_decode_error
  have hzero : IllegalFields 0 := herr.mpr ⟨_, rfl⟩
  exact ⟨herr, illegalFields_iff.trans forall_not_matches_iff.symm, hout, hzero, hout hzero⟩

end Sys2Proof.Machine
end

section
/-! ### Every command word: what decodes from it, and what a write of it does (R54, R55, R59, R77) -/

namespace Sys2Proof

/-! #### Decoding an encoded command -/

theorem Op.code_injective : Function.Injective Op.code := by
  intro op op' h
  exact Option.some.inj ((Op.ofCode?_eq_some_iff.mpr rfl).symm.trans (Op.ofCode?_eq_some_iff.mpr h))

/-- An opcode that uses neither M nor k has one command. -/
theorem Instr.eq_instr_of_uses_no_field {i : Instr} (hm : i.op.usesMM1 = false) (hk : i.op.usesBitsize = false)
    (m k : Nat) : i = i.op.instr m k := by
  cases i with
  | zero | fromsc | add | mul => rfl
  | addm | mulm => cases hm
  | addmod | mulmod => cases hk

/-- The word of a command has that command's fields (R59, R51). -/
theorem fieldsOf_encode {i : Instr} (h : i.WellFormed) : i.op.FieldsOf (encode i) := by
  obtain ⟨hopc, hmm1, hbits, h0, h1, h2⟩ := encodedFields i h
  refine ⟨hopc, h0, fun hu => BitVec.eq_of_toNat_eq ?_, h1, fun hu => BitVec.eq_of_toNat_eq ?_, h2⟩
  · rw [hmm1, hu]; rfl
  · rw [hbits, hu]; rfl

/-- MM1 + 1 and BITSIZE of the word of a command give the command back (R49, R50, R54). -/
theorem instr_of_encode {i : Instr} (h : i.WellFormed) :
    i.op.instr ((mm1Field (encode i)).toNat + 1) (bitsizeField (encode i)).toNat = i := by
  obtain ⟨-, hmm1, hbits, -⟩ := encodedFields i h
  rw [hmm1, hbits]
  cases i with
  | zero | fromsc | add | mul | addmod k | mulmod k => rfl
  | addm m | mulm m =>
    have hm : 1 ≤ m := (of_decide_eq_true h).1
    simp [Instr.op, Op.usesMM1, Op.instr, Instr.limbCount, hm]

theorem decode_encode {i : Instr} (h : i.WellFormed) : decode (encode i) = .ok i :=
  decode_eq_ok_iff.mpr ⟨i.op, fieldsOf_encode h, (instr_of_encode h).symm⟩

namespace Machine

/-! #### Writing the word of a command, or another word with its opcode -/

/-- No command uses both M and k: one whose k is too large has M = N. -/
theorem limbCount_eq_of_capacity_lt {c : Config} {i : Instr} (h : c.capacity < i.bitWidth c.n) :
    i.limbCount c.n = c.n := by
  cases i with
  | zero | fromsc | add | mul | addmod k | mulmod k => rfl
  | addm m | mulm m => exact absurd h (lt_irrefl _)

/-- A block that can take a command makes the checks of the decoded command, in the order of R55. -/
theorem step_withWrite_legal {s : State} (h : s.Ready) {w : Word} {i : Instr} (hd : decode w = .ok i)
    (rest : List Event) :
    step (s.withWrite 0x18 w rest) = .next (s.setBlock
      (if s.cfg.n < i.limbCount s.cfg.n then s.block.faulted 1 0x18 w
       else if s.cfg.capacity < i.bitWidth s.cfg.n then s.block.faulted 2 0x18 w
       else s.block.accepted s.cfg i) rest) := by
  rw [issuePriority s rest w, if_neg (by simp [h.2]), if_neg (by simp [h.1]), hd]
  rfl

/-- What R55 says of a word that decodes to command i, check by check. -/
theorem issueOutcomes_of_decode {w : Word} {i : Instr} (hd : decode w = .ok i) : IssueOutcomes w i where
  decodes := hd
  ignored s rest hf := by rw [issuePriority s rest w, if_pos hf]
  busy s rest hf hb := by rw [issuePriority s rest w, if_neg (by simp [hf]), if_pos hb]
  size_order s rest h hm := by rw [step_withWrite_legal h hd, if_pos hm]
  bitsize_range s rest h hk := by
    rw [step_withWrite_legal h hd, limbCount_eq_of_capacity_lt hk, if_neg (lt_irrefl _), if_pos hk]
  accepted s rest h hl := by
    obtain ⟨-, hm, hk⟩ := hl
    rw [step_withWrite_legal h hd, if_neg hm.not_gt, if_neg hk.not_gt]

theorem issueOutcomes_encode {i : Instr} (h : i.WellFormed) : IssueOutcomes (encode i) i :=
  issueOutcomes_of_decode (decode_encode h)

/-- A word with the opcode of a command that is not the word of any such command is illegal: what decodes from a word
has its opcode, and is encoded by that word. -/
theorem illegalOutcome_of_ne_encode {w : Word} {op : Op} (hopc : opcField w = op.code)
    (hne : ∀ i : Instr, i.WellFormed → i.op = op → w ≠ encode i) : IllegalOutcome w := by
  cases hd : decode w with
  | error e => exact illegalOutcome_of_decode_error hd
  | ok i =>
    have hf : i.op.FieldsOf w := exists_decode_op_iff.mp ⟨i, hd, rfl⟩
    have hop : i.op = op := Op.code_injective (hf.opc.symm.trans hopc)
    exact absurd (encode_of_decode hd).symm (hne i (wellFormed_of_decode hd) hop)

/-- An opcode that uses neither M nor k has one word, and every other word with that opcode is illegal. -/
theorem illegalOutcome_of_uses_no_field {w : Word} {op : Op} (hm : op.usesMM1 = false) (hk : op.usesBitsize = false)
    (hopc : opcField w = op.code) (hw : w ≠ encode (op.instr 0 0)) : IllegalOutcome w := by
  refine illegalOutcome_of_ne_encode hopc fun i _ hop => ?_
  subst hop
  exact Instr.eq_instr_of_uses_no_field hm hk 0 0 ▸ hw

end Machine

end Sys2Proof
end

section
/-! ### Construction (R58, R62, R63) -/

namespace Sys2Proof.Machine

/-- The second step of a command leaves its limbs in R (R58). -/
theorem exec_running {i : Instr} {s : State} (h : s.Running i) :
    exec i s = .next { s with block := s.block.completed (commandLimbs s i) } := by
  rw [exec_eq_runCommand, runCommand_running h]
  rfl

theorem completesWith_of_running {i : Instr} {s : State} (h : s.Running i) :
    CompletesWith i s (val (commandLimbs s i)) :=
  ⟨commandLimbs s i, exec_running h, length_commandLimbs s i, rfl⟩

/-- `from_scalar(x)` is x under zeros (R63). -/
theorem fromScalar_eq {n : Nat} (h : 1 ≤ n) (x : Word) : fromScalar n x = x :: List.replicate (n - 1) 0 := by
  obtain ⟨n, rfl⟩ := Nat.exists_eq_add_of_le' h
  rw [fromScalar, limbs, limbs_nil, zeros, Nat.add_sub_cancel]

theorem val_fromScalar {n : Nat} (h : 1 ≤ n) (x : Word) : val (fromScalar n x) = x.toNat := by
  rw [fromScalar, val_limbs h, val_cons, val_nil, Nat.mul_zero, Nat.add_zero]

/-- Settles O25: ZERO has one word, the encoding of the one command with its opcode (`issueOutcomes_encode`,
`illegalOutcome_of_uses_no_field`), and its second step leaves its limbs (`exec_running`), which are zeros. -/
theorem zeroCommand : Obligations.ZeroCommand :=
  ⟨issueOutcomes_encode (i := .zero) rfl,
    fun _ hopc hw => illegalOutcome_of_uses_no_field (op := .zero) rfl rfl hopc hw,
    fun _ h => exec_running h⟩

/-- Settles O26: FROMSC has one word, as ZERO has; its second step leaves `from_scalar(SCALAR)` (`exec_running`), whose
limbs and value are those of `fromScalar_eq` and `val_fromScalar`. -/
theorem fromscCommand : Obligations.FromscCommand := by
  refine ⟨issueOutcomes_encode (i := .fromsc) rfl,
    fun w hopc hw => illegalOutcome_of_uses_no_field (op := .fromsc) rfl rfl hopc hw, fun s h => ⟨?_, ?_⟩⟩
  · have hlimbs : commandLimbs s .fromsc = s.block.scalar :: List.replicate (s.cfg.n - 1) 0 :=
      fromScalar_eq s.cfg.n_pos s.block.scalar
    rw [exec_running h, hlimbs]
  · have hval : val (commandLimbs s .fromsc) = s.block.scalar.toNat := val_fromScalar s.cfg.n_pos s.block.scalar
    exact hval ▸ completesWith_of_running h

end Sys2Proof.Machine
end

section
/-! ### The value of every command (R62 to R73), and its run from the write of its word to its completion -/

namespace Sys2Proof.Machine

/-! #### The values of the limb operations -/

/-- `pack(v, n)` keeps v modulo 2^(64·n) (R7). -/
theorem val_pack (v n : Nat) : val (pack v n) = v % 2 ^ (64 * n) := by
  induction n generalizing v with
  | zero => rw [pack_zero_length, val_nil, Nat.mul_zero, pow_zero, Nat.mod_one]
  | succ n ih => rw [pack_succ, val_cons, ih, BitVec.toNat_ofNat, mod_limbs_succ]

theorem val_addLimbs {xs ys : List Word} (h : xs.length = ys.length) :
    val (addLimbs xs ys) = (val xs + val ys) % 2 ^ (64 * xs.length) :=
  val_ripple xs ys false h

theorem val_mulLimbs (n : Nat) (xs ys : List Word) : val (mulLimbs n xs ys) = val xs * val ys % 2 ^ (64 * n) := by
  rw [mulLimbs, val_pack, Nat.mod_mod]

theorem val_mulmodLimbs {n k : Nat} (h : k ≤ 64 * n) (xs ys : List Word) :
    val (mulmodLimbs n k xs ys) = val xs * val ys % 2 ^ k := by
  rw [mulmodLimbs, val_pack]
  exact Nat.mod_eq_of_lt ((Nat.mod_lt _ (Nat.two_pow_pos k)).trans_le (Nat.pow_le_pow_right (by decide) h))

/-- The low d bits of a vector: those of its lowest limb, and the low d − 64 of the rest. -/
theorem toNat_add_limb_mod_two_pow (y : Word) (v d : Nat) :
    (y.toNat + 2 ^ 64 * v) % 2 ^ d = y.toNat % 2 ^ d + 2 ^ 64 * (v % 2 ^ (d - 64)) := by
  have hy := y.isLt
  rcases Nat.le_total d 64 with h | h
  · have hpow : (2 : Nat) ^ 64 = 2 ^ d * 2 ^ (64 - d) := by rw [← pow_add, Nat.add_sub_cancel' h]
    rw [Nat.sub_eq_zero_of_le h, pow_zero, Nat.mod_one, Nat.mul_zero, Nat.add_zero, hpow, Nat.mul_assoc,
      Nat.add_mul_mod_self_left]
  · have hpow : (2 : Nat) ^ d = 2 ^ 64 * 2 ^ (d - 64) := by rw [← pow_add, Nat.add_sub_cancel' h]
    have hlow : y.toNat % 2 ^ d = y.toNat :=
      Nat.mod_eq_of_lt (hy.trans_le (Nat.pow_le_pow_right (by decide) h))
    rw [hlow, hpow, Nat.mod_mul]
    congr 1
    · omega
    · congr 2; omega

/-- The mask keeps the low k bits of the value (R70). -/
theorem val_maskFrom (k i : Nat) (ys : List Word) : val (maskFrom k i ys) = val ys % 2 ^ (k - 64 * i) := by
  induction ys generalizing i with
  | nil => rw [maskFrom, val_nil, Nat.zero_mod]
  | cons y ys ih =>
    rw [maskFrom, val_cons, val_cons, maskLimb_value, ih, toNat_add_limb_mod_two_pow, Nat.mul_succ, Nat.sub_add_eq]

theorem val_maskLimbs (k : Nat) (ys : List Word) : val (maskLimbs k ys) = val ys % 2 ^ k :=
  val_maskFrom k 0 ys

/-! #### The values of the commands -/

section
variable {s : State}

/-- The limbs of B at and above M count 0 (R11). -/
theorem val_operandBLow (h : s.block.Inv s.cfg) (m : Nat) : val (operandBLow m s) = val (s.block.b.take m) :=
  val_limbs ((List.length_take_le' m _).trans_eq h.b_length)

theorem length_operandBLow (m : Nat) (s : State) : (operandBLow m s).length = s.cfg.n := length_limbs _ _

/-- The limbs a legal command computes have the value the spec gives it (R57). -/
theorem val_commandLimbs (h : s.block.Inv s.cfg) {i : Instr} (hl : i.Legal s.cfg) :
    val (commandLimbs s i) = commandValue s.cfg s.block i := by
  have ha : operandA s = s.block.a := limbs_eq_self h.a_length
  have hb : operandB s = s.block.b := limbs_eq_self h.b_length
  have hab : s.block.a.length = s.block.b.length := h.a_length.trans h.b_length.symm
  obtain ⟨-, -, hk⟩ := hl
  cases i with
  | zero => exact val_zeros s.cfg.n
  | fromsc => exact val_fromScalar s.cfg.n_pos s.block.scalar
  | add => rw [commandLimbs, commandValue, ha, hb, val_addLimbs hab, h.a_length]
  | addm m =>
    have hlen : s.block.a.length = (operandBLow m s).length := h.a_length.trans (length_operandBLow m s).symm
    rw [commandLimbs, commandValue, ha, val_addLimbs hlen, val_operandBLow h, h.a_length]
  | mul => rw [commandLimbs, commandValue, ha, hb, val_mulLimbs]
  | mulm m => rw [commandLimbs, commandValue, ha, val_mulLimbs, val_operandBLow h]
  | addmod k =>
    have hk : k ≤ 64 * s.cfg.n := hk
    rw [commandLimbs, commandValue, ha, hb, val_maskLimbs, val_addLimbs hab, h.a_length,
      Nat.mod_mod_of_dvd _ (Nat.pow_dvd_pow 2 hk)]
  | mulmod k =>
    have hk : k ≤ 64 * s.cfg.n := hk
    rw [commandLimbs, commandValue, ha, hb, val_mulmodLimbs hk]
end

/-! #### From the write of its word to its completion -/

/-- Accepting a command changes no operand (R56), so the command computes from the block it was accepted in. -/
theorem commandLimbs_accepted (s : State) (i j : Instr) (rest : List Event) :
    commandLimbs (s.setBlock (s.block.accepted s.cfg j) rest) i = commandLimbs s i := by
  cases i <;> rfl

/-- Settles O33: the word of a legal command is accepted (`issueOutcomes_encode`), the datapath's turn completes it
(`step_complete_of_running`) with the limbs it computes from the operands at acceptance (`commandLimbs_accepted`), and
these have its value (`val_commandLimbs`). -/
theorem everyLegalCommandRunsToItsValue : Obligations.EveryLegalCommandRunsToItsValue := by
  intro s i rest hinv hready hwf hlegal
  have hrun : (s.setBlock (s.block.accepted s.cfg i) rest).Running i := ⟨rfl, rfl⟩
  have hcomplete := step_complete_of_running hrun rest
  refine ⟨_, commandLimbs s i, (issueOutcomes_encode hwf).accepted s _ hready hlegal, rfl, ?_,
    length_commandLimbs s i, val_commandLimbs hinv.block hlegal⟩
  rw [← commandLimbs_accepted s i i rest]
  exact hcomplete

end Sys2Proof.Machine
end

section
/-! ### Addition (R64, R65, R66), and the limbs of B that ADDM and MULM do not read (R11, R69) -/

namespace Sys2Proof.Machine

/-! #### The limb step -/

/-- Settles O37: the limb step loses nothing (`addStep_value`) and its sum is below 2^64, so sum and carry are remainder
and quotient; a sum that wraps is at most 2^64 − 2, so a carry in of 1 does not wrap it again. -/
theorem addStepIsExact : Obligations.AddStepIsExact := by
  intro x y c
  have hvalue := addStep_value x y c
  have hsum := (addStep x y c).1.isLt
  have hx := x.isLt
  have hy := y.isLt
  have hc := c.toNat_le
  refine ⟨?_, ?_, ?_⟩
  · omega
  · omega
  · rintro ⟨hfirst, hsecond⟩
    omega

/-! #### The words of ADD and ADDM, and their values -/

/-- An opcode that uses M has one word for each M of 1 to 1024, and every other word with that opcode is illegal
(R49, R53). -/
theorem illegalOutcome_of_usesMM1 {w : Word} {op : Op} (hop : op.usesMM1 = true) (hopc : opcField w = op.code)
    (hne : ∀ m, 1 ≤ m → m ≤ 1024 → w ≠ encode (op.instr m 0)) : IllegalOutcome w := by
  refine illegalOutcome_of_ne_encode hopc fun i hwf hi => ?_
  subst hi
  cases i with
  | zero | fromsc | add | mul | addmod k | mulmod k => cases hop
  | addm m | mulm m =>
    obtain ⟨hpos, hle⟩ := of_decide_eq_true hwf
    exact hne m hpos hle

/-- Only legal commands are in flight (R55). -/
theorem legal_of_running {s : State} {i : Instr} (hinv : s.Inv) (h : s.Running i) : i.Legal s.cfg := by
  obtain ⟨-, hinflight⟩ := h
  obtain ⟨hlegal, -⟩ := hinv.block.inflight_legal _ hinflight
  rwa [Inflight.instr_mk] at hlegal

/-- The second step of a command leaves its value in R (R58). -/
theorem completesWith_commandValue {s : State} {i : Instr} (hinv : s.Inv) (h : s.Running i) :
    CompletesWith i s (commandValue s.cfg s.block i) :=
  val_commandLimbs hinv.block (legal_of_running hinv h) ▸ completesWith_of_running h

/-- Settles O27: ADD has one word (`issueOutcomes_encode`, `illegalOutcome_of_uses_no_field`), and completes with its
value, the wrapped sum (`completesWith_commandValue`). -/
theorem addCommand : Obligations.AddCommand :=
  ⟨issueOutcomes_encode (i := .add) rfl,
    fun _ hopc hw => illegalOutcome_of_uses_no_field (op := .add) rfl rfl hopc hw,
    fun _ hinv h => completesWith_commandValue hinv h⟩

/-- Settles O28: ADDM has one word for each M (`issueOutcomes_encode`, `illegalOutcome_of_usesMM1`), and completes with
its value, the wrapped sum with the low M limbs of B (`completesWith_commandValue`). -/
theorem addmCommand : Obligations.AddmCommand :=
  ⟨fun m hpos hle => issueOutcomes_encode (i := .addm m) (decide_eq_true ⟨hpos, hle⟩),
    fun _ hopc hne => illegalOutcome_of_usesMM1 (op := .addm) rfl hopc hne,
    fun _ _ hinv h => completesWith_commandValue hinv h⟩

/-! #### Commands that do not read all of B -/

/-- s with b as its register B. -/
def State.withB (b : List Word) (s : State) : State := { s with block := { s.block with b := b } }

section
variable {i : Instr} {s t : State} {b : List Word}

@[simp] theorem State.withB_busy : (s.withB b).block.busy = s.block.busy := rfl
@[simp] theorem State.withB_fault : (s.withB b).block.fault = s.block.fault := rfl
@[simp] theorem inFlight_withB : inFlight i (s.withB b) = inFlight i s := rfl

/-- No branch of the two steps of a command looks at B, and none changes it. -/
theorem runCommand_withB {check : Option FaultCode} {y : List Word} (h : runCommand i check y s = .next t) :
    runCommand i check y (s.withB b) = .next (t.withB b) := by
  unfold runCommand at h ⊢
  rw [inFlight_withB, State.withB_fault, State.withB_busy]
  split_ifs at h with hi hf hb
  · rw [if_pos hi]; cases h; rfl
  · rw [if_neg hi, if_pos hf]; cases h; rfl
  · rw [if_neg hi, if_neg hf, if_pos hb]; cases h; rfl
  · rw [if_neg hi, if_neg hf, if_neg hb]
    cases check with
    | none => cases h; rfl
    | some code => cases h; rfl

/-- No check at Issue looks at B (R75, R76). -/
theorem commandCheck_withB : commandCheck (s.withB b) i = commandCheck s i := by
  cases i <;> rfl

/-- A command that computes the same limbs from b as from B has the same step with b for B. -/
theorem exec_withB (hlimbs : commandLimbs (s.withB b) i = commandLimbs s i) (h : exec i s = .next t) :
    exec i (s.withB b) = .next (t.withB b) := by
  rw [exec_eq_runCommand] at h ⊢
  rw [commandCheck_withB, hlimbs]
  exact runCommand_withB h

/-- The operand B[0..M] is of the low M limbs alone (R11). -/
theorem operandBLow_withB {m : Nat} (h : b.take m = s.block.b.take m) :
    operandBLow m (s.withB b) = operandBLow m s :=
  congrArg (limbs s.cfg.n) h
end

/-- Settles O35: B reaches ADDM M and MULM M only through the limbs they compute (`exec_withB`), and these only through
the operand B[0..M], which is that of the low M limbs (`operandBLow_withB`). -/
theorem highLimbsOfBDoNotMatter : Obligations.HighLimbsOfBDoNotMatter := by
  intro s t m b hlow
  have hoperand : operandBLow m (s.withB b) = operandBLow m s := operandBLow_withB hlow
  exact ⟨exec_withB (congrArg (addLimbs (operandA s)) hoperand),
    exec_withB (congrArg (mulLimbs s.cfg.n (operandA s)) hoperand)⟩

end Sys2Proof.Machine
end

section
/-! ### Multiplication (R67, R68, R69) -/

namespace Sys2Proof.Machine

/-! #### The schoolbook loop (R68) -/

section
variable {lim : Nat} {acc : List Word}

theorem length_addAt (acc : List Word) (q v : Nat) : (addAt acc q v).length = acc.length := (val_addAt acc q v).2

/-- AddAt, modulo the capacity of its accumulator. -/
theorem val_addAt_modEq (h : acc.length = lim) (q v : Nat) :
    val (addAt acc q v) ≡ val acc + v * 2 ^ (64 * q) [MOD 2 ^ (64 * lim)] := by
  rw [(val_addAt acc q v).1, h]
  exact Nat.mod_modEq _ _

/-- Past its last limb, an accumulator takes nothing. -/
theorem addAt_of_length_le {q : Nat} (h : acc.length ≤ q) (v : Nat) : addAt acc q v = acc := by
  induction acc generalizing q with
  | nil => rfl
  | cons x xs ih =>
    cases q with
    | zero => exact absurd h (Nat.not_succ_le_zero _)
    | succ q => rw [addAt, ih (Nat.le_of_succ_le_succ h)]

/-- The two tests against `lim` only leave out additions that would take no effect. -/
theorem addProduct_eq_addAt (h : acc.length = lim) (q : Nat) (x y : Word) :
    addProduct lim q x y acc =
      addAt (addAt acc q (x.toNat * y.toNat % 2 ^ 64)) (q + 1) (x.toNat * y.toNat / 2 ^ 64) := by
  subst h
  rw [addProduct]
  split_ifs with hlow hhigh
  · rfl
  · rw [addAt_of_length_le (q := q + 1) (by rw [length_addAt]; omega)]
  · rw [addAt_of_length_le (q := q) (by omega), addAt_of_length_le (q := q + 1) (by omega)]

theorem length_addProduct (h : acc.length = lim) (q : Nat) (x y : Word) :
    (addProduct lim q x y acc).length = lim := by
  rw [addProduct_eq_addAt h, length_addAt, length_addAt, h]

/-- The two halves of a product of limbs, each added at its place, are the product. -/
theorem val_addProduct (h : acc.length = lim) (q : Nat) (x y : Word) :
    val (addProduct lim q x y acc) ≡ val acc + x.toNat * y.toNat * 2 ^ (64 * q) [MOD 2 ^ (64 * lim)] := by
  set p := x.toNat * y.toNat
  have hhalves : p % 2 ^ 64 * 2 ^ (64 * q) + p / 2 ^ 64 * 2 ^ (64 * (q + 1)) = p * 2 ^ (64 * q) := by
    calc p % 2 ^ 64 * 2 ^ (64 * q) + p / 2 ^ 64 * 2 ^ (64 * (q + 1))
      _ = (p % 2 ^ 64 + 2 ^ 64 * (p / 2 ^ 64)) * 2 ^ (64 * q) := by rw [pow_limbs_succ]; ring
      _ = p * 2 ^ (64 * q) := by rw [Nat.mod_add_div]
  rw [addProduct_eq_addAt h, ← hhalves, ← Nat.add_assoc]
  have hlow := val_addAt_modEq h q (p % 2 ^ 64)
  exact (val_addAt_modEq ((length_addAt _ _ _).trans h) (q + 1) (p / 2 ^ 64)).trans (hlow.add_right _)

theorem length_schoolbookRow (h : acc.length = lim) (x : Word) (ys : List Word) (q : Nat) :
    (schoolbookRow lim x ys q acc).length = lim := by
  induction ys generalizing q acc with
  | nil => exact h
  | cons y ys ih => exact ih (length_addProduct h q x y) (q + 1)

/-- The loop over j adds one limb of A times the whole of B. -/
theorem val_schoolbookRow (h : acc.length = lim) (x : Word) (ys : List Word) (q : Nat) :
    val (schoolbookRow lim x ys q acc) ≡ val acc + x.toNat * val ys * 2 ^ (64 * q) [MOD 2 ^ (64 * lim)] := by
  induction ys generalizing q acc with
  | nil => rw [schoolbookRow, val_nil, Nat.mul_zero, Nat.zero_mul, Nat.add_zero]
  | cons y ys ih =>
    have hsplit : val acc + x.toNat * val (y :: ys) * 2 ^ (64 * q) =
        val acc + x.toNat * y.toNat * 2 ^ (64 * q) + x.toNat * val ys * 2 ^ (64 * (q + 1)) := by
      rw [val_cons, pow_limbs_succ]; ring
    rw [hsplit]
    exact (ih (length_addProduct h q x y) (q + 1)).trans ((val_addProduct h q x y).add_right _)

theorem length_schoolbookLoop (h : acc.length = lim) (ys xs : List Word) (q : Nat) :
    (schoolbookLoop lim ys xs q acc).length = lim := by
  induction xs generalizing q acc with
  | nil => exact h
  | cons x xs ih => exact ih (length_schoolbookRow h x ys q) (q + 1)

/-- The loop over i adds the product, modulo the capacity of its accumulator. -/
theorem val_schoolbookLoop (h : acc.length = lim) (ys xs : List Word) (q : Nat) :
    val (schoolbookLoop lim ys xs q acc) ≡ val acc + val xs * val ys * 2 ^ (64 * q) [MOD 2 ^ (64 * lim)] := by
  induction xs generalizing q acc with
  | nil => rw [schoolbookLoop, val_nil, Nat.zero_mul, Nat.zero_mul, Nat.add_zero]
  | cons x xs ih =>
    have hsplit : val acc + val (x :: xs) * val ys * 2 ^ (64 * q) =
        val acc + x.toNat * val ys * 2 ^ (64 * q) + val xs * val ys * 2 ^ (64 * (q + 1)) := by
      rw [val_cons, pow_limbs_succ]; ring
    rw [hsplit]
    exact (ih (length_schoolbookRow h x ys q) (q + 1)).trans ((val_schoolbookRow h x ys q).add_right _)
end

theorem length_schoolbook (n : Nat) (xs ys : List Word) : (schoolbook n xs ys).length = n :=
  length_schoolbookLoop (length_zeros n) ys xs 0

theorem val_schoolbook (n : Nat) (xs ys : List Word) :
    val (schoolbook n xs ys) = val xs * val ys % 2 ^ (64 * n) := by
  have hlt : val (schoolbook n xs ys) < 2 ^ (64 * n) := by
    simpa only [length_schoolbook] using val_lt (schoolbook n xs ys)
  have hloop := val_schoolbookLoop (length_zeros n) ys xs 0
  rw [val_zeros, Nat.zero_add, Nat.mul_zero, pow_zero, Nat.mul_one] at hloop
  exact (Nat.mod_eq_of_lt hlt).symm.trans hloop

theorem length_mulLimbs (n : Nat) (xs ys : List Word) : (mulLimbs n xs ys).length = n := length_pack _ n

/-- Settles O38: both sides have n limbs, and the loop's value is that of the product (`val_schoolbookLoop`). -/
theorem schoolbookGivesTheProduct : Obligations.SchoolbookGivesTheProduct := by
  intro n xs ys
  refine val_inj ?_ ?_
  · rw [length_schoolbook, length_mulLimbs]
  · rw [val_schoolbook, val_mulLimbs]

/-! #### The carry-save tree (R67) -/

theorem sum_partialRow (x : Word) (ys : List Word) (q : Nat) :
    (partialRow x ys q).sum = x.toNat * val ys * 2 ^ (64 * q) := by
  induction ys generalizing q with
  | nil => rw [partialRow, val_nil, List.sum_nil, Nat.mul_zero, Nat.zero_mul]
  | cons y ys ih => rw [partialRow, List.sum_cons, ih, val_cons, pow_limbs_succ]; ring

/-- The partial products add up to the product. -/
theorem sum_partialProducts (ys xs : List Word) (q : Nat) :
    (partialProducts ys xs q).sum = val xs * val ys * 2 ^ (64 * q) := by
  induction xs generalizing q with
  | nil => rw [partialProducts, val_nil, List.sum_nil, Nat.zero_mul, Nat.zero_mul]
  | cons x xs ih => rw [partialProducts, List.sum_append, sum_partialRow, ih, val_cons, pow_limbs_succ]; ring

/-- A layer keeps the sum of its rows, since each of its 3:2 adders does (`csa_value`). -/
theorem sum_csaLayer (rows : List Nat) : (csaLayer rows).sum = rows.sum := by
  induction rows using csaLayer.induct with
  | case1 x y z rest ih =>
    have hadder := csa_value x y z
    simp only [csaLayer, List.sum_cons, ih]
    omega
  | case2 | case3 | case4 => rfl

theorem sum_csaTree (depth : Nat) (rows : List Nat) : (csaTree depth rows).sum = rows.sum := by
  induction depth generalizing rows with
  | zero => rfl
  | succ depth ih => rw [csaTree, ih, sum_csaLayer]

theorem carrySaveProduct_eq_mulLimbs (depth n : Nat) (xs ys : List Word) :
    carrySaveProduct depth n xs ys = mulLimbs n xs ys := by
  rw [carrySaveProduct, sum_csaTree, sum_partialProducts, Nat.mul_zero, pow_zero, Nat.mul_one, mulLimbs]

/-- Settles O39: no layer changes the sum of the rows (`sum_csaLayer`), which is at first the product
(`sum_partialProducts`); and the schoolbook loop gives the product too. -/
theorem carrySaveTreeGivesTheProduct : Obligations.CarrySaveTreeGivesTheProduct := by
  intro depth n xs ys
  have hproduct := carrySaveProduct_eq_mulLimbs depth n xs ys
  exact ⟨hproduct, hproduct.trans (schoolbookGivesTheProduct n xs ys).symm⟩

/-! #### The words of MUL and MULM, their values and their limbs -/

section
variable {s : State}

theorem operandA_eq (h : s.block.Inv s.cfg) : operandA s = s.block.a := limbs_eq_self h.a_length

theorem operandB_eq (h : s.block.Inv s.cfg) : operandB s = s.block.b := limbs_eq_self h.b_length

/-- MUL computes the limbs of the schoolbook loop over A and B (R68). -/
theorem commandLimbs_mul (h : s.block.Inv s.cfg) :
    commandLimbs s .mul = schoolbook s.cfg.n s.block.a s.block.b := by
  rw [schoolbookGivesTheProduct, commandLimbs, operandA_eq h, operandB_eq h]

/-- MULM computes the limbs of the schoolbook loop over A and the low M limbs of B (R69). -/
theorem commandLimbs_mulm (h : s.block.Inv s.cfg) (m : Nat) :
    commandLimbs s (.mulm m) = schoolbook s.cfg.n s.block.a (s.block.b.take m) := by
  rw [schoolbookGivesTheProduct, commandLimbs, operandA_eq h, mulLimbs, val_operandBLow h, mulLimbs]
end

/-- Settles O29: MUL has one word (`issueOutcomes_encode`, `illegalOutcome_of_uses_no_field`), and completes with its
value (`completesWith_commandValue`) in the limbs of the schoolbook loop (`commandLimbs_mul`). -/
theorem mulCommand : Obligations.MulCommand :=
  ⟨issueOutcomes_encode (i := .mul) rfl,
    fun _ hopc hw => illegalOutcome_of_uses_no_field (op := .mul) rfl rfl hopc hw,
    fun _ hinv h => ⟨completesWith_commandValue hinv h, commandLimbs_mul hinv.block ▸ exec_running h⟩⟩

/-- Settles O30: MULM has one word for each M (`issueOutcomes_encode`, `illegalOutcome_of_usesMM1`), and completes with
its value (`completesWith_commandValue`) in the limbs of the schoolbook loop over the low M limbs of B
(`commandLimbs_mulm`). -/
theorem mulmCommand : Obligations.MulmCommand :=
  ⟨fun m hpos hle => issueOutcomes_encode (i := .mulm m) (decide_eq_true ⟨hpos, hle⟩),
    fun _ hopc hne => illegalOutcome_of_usesMM1 (op := .mulm) rfl hopc hne,
    fun _ m hinv h => ⟨completesWith_commandValue hinv h, commandLimbs_mulm hinv.block m ▸ exec_running h⟩⟩

end Sys2Proof.Machine
end

section
/-! ### The result mask and the modular commands (R70, R71, R72, R73) -/

namespace Sys2Proof.Machine

/-! #### The result mask -/

theorem length_maskLimbs (k : Nat) (ys : List Word) : (maskLimbs k ys).length = ys.length := length_maskFrom k 0 ys

/-- Settles O40: the mask keeps the value modulo 2^k (`val_maskLimbs`), and the bits of such a remainder are the bits
below k. -/
theorem maskKeepsTheLowBits : Obligations.MaskKeepsTheLowBits := by
  intro k ys _
  refine ⟨length_maskLimbs k ys, val_maskLimbs k ys, fun j => ?_⟩
  rw [val_maskLimbs, Nat.testBit_mod_two_pow]

/-- A masked vector is the one vector of its length whose value is that modulo 2^k. -/
theorem maskLimbs_eq {k : Nat} {xs ys : List Word} (hlen : xs.length = ys.length) (hval : val xs = val ys % 2 ^ k) :
    maskLimbs k ys = xs :=
  val_inj ((length_maskLimbs k ys).trans hlen.symm) ((val_maskLimbs k ys).trans hval.symm)

theorem val_append_zeros (xs : List Word) (n : Nat) : val (xs ++ zeros n) = val xs := by
  rw [val_append, val_zeros, Nat.mul_zero, Nat.add_zero]

/-- The low q limbs hold the value modulo 2^(64·q). -/
theorem val_take {q : Nat} {ys : List Word} (h : q ≤ ys.length) : val (ys.take q) = val ys % 2 ^ (64 * q) := by
  have hlen : (ys.take q).length = q := List.length_take_of_le h
  have hlt : val (ys.take q) < 2 ^ (64 * q) := by simpa only [hlen] using val_lt (ys.take q)
  have hsplit : val ys = val (ys.take q) + 2 ^ (64 * q) * val (ys.drop q) := by
    simpa only [List.take_append_drop, hlen] using val_append (ys.take q) (ys.drop q)
  rw [hsplit, Nat.add_mul_mod_self_left, Nat.mod_eq_of_lt hlt]

/-- Settles O41: each vector has the length and the value of the masked one (`maskLimbs_eq`): the value modulo 1, of the
low q limbs (`val_take`), and of all limbs. -/
theorem maskBoundaryCases : Obligations.MaskBoundaryCases := by
  intro ys
  refine ⟨maskLimbs_eq List.length_replicate ?_, fun q _ hq => maskLimbs_eq ?_ ?_, maskLimbs_eq rfl ?_⟩
  · rw [pow_zero, Nat.mod_one]
    exact val_zeros ys.length
  · rw [List.length_append, List.length_take_of_le hq, List.length_replicate, Nat.add_sub_cancel' hq]
  · exact (val_append_zeros _ _).trans (val_take hq)
  · exact (Nat.mod_eq_of_lt (val_lt ys)).symm

/-! #### The two other ways to MULMOD's result (R73) -/

theorem length_mulmodLimbs (n k : Nat) (xs ys : List Word) : (mulmodLimbs n k xs ys).length = n := length_pack _ n

/-- Masking n limbs that hold a product modulo some 2^w with k ≤ w gives MULMOD's limbs. -/
theorem maskLimbs_eq_mulmodLimbs {n k w : Nat} {xs ys zs : List Word} (hk : k ≤ 64 * n) (hw : k ≤ w)
    (hlen : zs.length = n) (hval : val zs = val xs * val ys % 2 ^ w) : maskLimbs k zs = mulmodLimbs n k xs ys := by
  refine maskLimbs_eq ((length_mulmodLimbs n k xs ys).trans hlen.symm) ?_
  rw [val_mulmodLimbs hk, hval, Nat.mod_mod_of_dvd _ (Nat.pow_dvd_pow 2 hw)]

/-- Settles O42: MUL's limbs hold the product modulo 2^(64·n) (`val_mulLimbs`), and masking keeps of it what MULMOD
computes (`maskLimbs_eq_mulmodLimbs`). -/
theorem mulmodIsMaskedMul : Obligations.MulmodIsMaskedMul := by
  intro n k xs ys hk
  exact (maskLimbs_eq_mulmodLimbs hk hk (length_mulLimbs n xs ys) (val_mulLimbs n xs ys)).symm

/-- The limbs R73 computes are enough for k bits (R70). -/
theorem le_nlimbs (k : Nat) : k ≤ 64 * nlimbs k := by
  unfold nlimbs
  omega

/-- Where a block holds k bits, it has the limbs R73 computes. -/
theorem nlimbs_le {n k : Nat} (h : k ≤ 64 * n) : nlimbs k ≤ n := by
  unfold nlimbs
  omega

/-- Settles O43: the restricted loop is the schoolbook product of `nlimbs k` limbs, whose value modulo 2^(64·nlimbs)
(`val_schoolbook`) has all of the low k bits (`le_nlimbs`); the zeros above do not change it. -/
theorem mulmodByLowLimbsOnly : Obligations.MulmodByLowLimbsOnly := by
  intro n k xs ys hk
  have hlen : (schoolbook (nlimbs k) xs ys ++ zeros (n - nlimbs k)).length = n := by
    rw [List.length_append, length_schoolbook, length_zeros, Nat.add_sub_cancel' (nlimbs_le hk)]
  exact maskLimbs_eq_mulmodLimbs hk (le_nlimbs k) hlen ((val_append_zeros _ _).trans (val_schoolbook _ xs ys))

/-! #### The words of ADDMOD and MULMOD, their values and their limbs -/

/-- An opcode that uses k has one word for each k of 0 to 65535, and every other word with that opcode is illegal
(R50, R53). -/
theorem illegalOutcome_of_usesBitsize {w : Word} {op : Op} (hop : op.usesBitsize = true) (hopc : opcField w = op.code)
    (hne : ∀ k, k ≤ 65535 → w ≠ encode (op.instr 0 k)) : IllegalOutcome w := by
  refine illegalOutcome_of_ne_encode hopc fun i hwf hi => ?_
  subst hi
  cases i with
  | zero | fromsc | add | addm m | mul | mulm m => cases hop
  | addmod k | mulmod k => exact hne k (of_decide_eq_true hwf)

section
variable {s : State}

/-- ADDMOD computes the ripple sum of A and B, masked (R72). -/
theorem commandLimbs_addmod (h : s.block.Inv s.cfg) (k : Nat) :
    commandLimbs s (.addmod k) = maskLimbs k (ripple s.block.a s.block.b false) := by
  rw [commandLimbs, operandA_eq h, operandB_eq h, addLimbs]

theorem commandLimbs_mulmod (h : s.block.Inv s.cfg) (k : Nat) :
    commandLimbs s (.mulmod k) = mulmodLimbs s.cfg.n k s.block.a s.block.b := by
  rw [commandLimbs, operandA_eq h, operandB_eq h]

/-- A MULMOD in flight has a k that the block can hold (R76). -/
theorem le_capacity_of_running_mulmod {k : Nat} (hinv : s.Inv) (h : s.Running (.mulmod k)) : k ≤ 64 * s.cfg.n := by
  obtain ⟨-, -, hk⟩ := legal_of_running hinv h
  exact hk
end

/-- Settles O31: ADDMOD has one word for each k (`issueOutcomes_encode`, `illegalOutcome_of_usesBitsize`), and completes
with its value (`completesWith_commandValue`) in the masked limbs of ADD (`commandLimbs_addmod`). -/
theorem addmodCommand : Obligations.AddmodCommand :=
  ⟨fun k hk => issueOutcomes_encode (i := .addmod k) (decide_eq_true hk),
    fun _ hopc hne => illegalOutcome_of_usesBitsize (op := .addmod) rfl hopc hne,
    fun _ k hinv h => ⟨completesWith_commandValue hinv h, commandLimbs_addmod hinv.block k ▸ exec_running h⟩⟩

/-- Settles O32: MULMOD has one word for each k, as ADDMOD has, and completes with its value
(`completesWith_commandValue`); its limbs are those of masked MUL (`mulmodIsMaskedMul`) and of the low-limbs-only method
(`mulmodByLowLimbsOnly`), since a command in flight has a k that the block can hold. -/
theorem mulmodCommand : Obligations.MulmodCommand := by
  refine ⟨fun k hk => issueOutcomes_encode (i := .mulmod k) (decide_eq_true hk),
    fun w hopc hne => illegalOutcome_of_usesBitsize (op := .mulmod) rfl hopc hne, fun s k hinv h => ?_⟩
  have hk := le_capacity_of_running_mulmod hinv h
  have hexec := exec_running h
  rw [commandLimbs_mulmod hinv.block] at hexec
  refine ⟨completesWith_commandValue hinv h, ?_, ?_⟩
  · rwa [← mulmodIsMaskedMul _ _ _ _ hk]
  · rwa [mulmodByLowLimbsOnly _ _ _ _ hk]

end Sys2Proof.Machine
end

section
/-! ### Exceptions: the faults of `Issue`, and the fault record (R75, R76, R77, R80) -/

namespace Sys2Proof.Machine

/-! #### The faults of Issue -/

/-- A decoded command whose M and k the block can hold is accepted: no fault, and BUSY set (R55, R56). -/
theorem step_withWrite_accepts {s : State} (h : s.Ready) {w : Word} {i : Instr} (hd : decode w = .ok i)
    (hm : i.limbCount s.cfg.n ≤ s.cfg.n) (hk : i.bitWidth s.cfg.n ≤ s.cfg.capacity) (rest : List Event) :
    ∃ t, step (s.withWrite 0x18 w rest) = .next t ∧ t.block.fault = false ∧ t.block.busy = true := by
  refine ⟨s.setBlock (s.block.accepted s.cfg i) rest, ?_, h.2, rfl⟩
  rw [step_withWrite_legal h hd, if_neg hm.not_gt, if_neg hk.not_gt]

/-- Settles O19: ADDM and MULM carry M and have k = 64·N, so the size check alone decides
(`issueOutcomes_of_decode`, `step_withWrite_accepts`). -/
theorem sizeOrderFault : Obligations.SizeOrderFault := by
  intro s rest w m h hw
  obtain ⟨i, hd, rfl, hk⟩ :
      ∃ i, decode w = .ok i ∧ i.limbCount s.cfg.n = m ∧ i.bitWidth s.cfg.n = s.cfg.capacity :=
    hw.elim (fun hd => ⟨_, hd, rfl, rfl⟩) (fun hd => ⟨_, hd, rfl, rfl⟩)
  exact ⟨(issueOutcomes_of_decode hd).size_order s rest h, fun hm => step_withWrite_accepts h hd hm hk.le rest⟩

/-- Settles O20: ADDMOD and MULMOD carry k and have M = N, so the width check alone decides
(`issueOutcomes_of_decode`, `step_withWrite_accepts`). -/
theorem bitsizeRangeFault : Obligations.BitsizeRangeFault := by
  intro s rest w k h hw
  obtain ⟨i, hd, hm, rfl⟩ : ∃ i, decode w = .ok i ∧ i.limbCount s.cfg.n = s.cfg.n ∧ i.bitWidth s.cfg.n = k :=
    hw.elim (fun hd => ⟨_, hd, rfl, rfl⟩) (fun hd => ⟨_, hd, rfl, rfl⟩)
  exact ⟨(issueOutcomes_of_decode hd).bitsize_range s rest h, fun hk => step_withWrite_accepts h hd hm.le hk rest⟩

/-- Settles O21: an illegal word is a fault of `Issue` in a ready block (`illegalOutcome_of_decode_error`). -/
theorem illegalCommandFault : Obligations.IllegalCommandFault :=
  fun s rest _ _ hready hd => illegalOutcome_of_decode_error hd s rest hready

/-! #### The fault record -/

/-- Of the four forms of STATUS only FAULTED has FAULT set, and it has BUSY = 0 (R15). -/
theorem Block.StatusForm.idle_of_fault {b : Block} (h : b.StatusForm) (hf : b.fault = true) : b.busy = false := by
  rcases h with ⟨hb, -⟩ | ⟨-, -, h0, -⟩ | ⟨hb, -⟩ | ⟨hb, -⟩
  · exact hb
  · exact absurd (hf.symm.trans h0) (by decide)
  · exact hb
  · exact hb

/-- With BUSY = 0 no command is in flight (R26). -/
theorem Block.Inv.inflight_eq_none {c : Config} {b : Block} (h : b.Inv c) (hb : b.busy = false) : b.inflight = none := by
  simpa [hb] using h.inflight_iff_busy

/-- From FAULTED a turn has three kinds of move left: none, an operand write, or the reset. A completion needs BUSY,
and a fault or an acceptance needs a block that is not FAULTED. So the record, R and INFLIGHT stay, or the block is
reset (R80). -/
theorem BlockMove.keeps_record_or_resets {s : State} {b : Block} (h : BlockMove s b) (hf : s.block.fault = true)
    (hb : s.block.busy = false) :
    (b.fault = true ∧ b.fcode = s.block.fcode ∧ b.faddr = s.block.faddr ∧ b.fdata = s.block.fdata ∧
      b.r = s.block.r ∧ b.inflight = s.block.inflight) ∨ b = Block.reset s.cfg := by
  cases h with
  | same | scalar | limbA | limbB => exact .inl ⟨hf, rfl, rfl, rfl, rfl, rfl⟩
  | reset => exact .inr rfl
  | completed busy => simp [hb] at busy
  | faulted _ _ _ fresh => simp [hf, hb] at fresh
  | accepted ready => simp [State.Ready, hf] at ready

/-- Settles O24: a CMD write is ignored and an operand write performed, by the rows of R33
(`writesFollowTheDecode`); and a turn makes one `BlockMove`, which from FAULTED keeps the record or resets
(`BlockMove.keeps_record_or_resets`). -/
theorem faultIsSticky : Obligations.FaultIsSticky := by
  refine ⟨fun s rest v hf hb => ?_, fun s t hinv hf => ?_⟩
  · obtain ⟨-, hcmd, hscalar, hlimbs, -⟩ := writesFollowTheDecode s rest v
    have hidle : ¬s.block.busy = true := by simp [hb]
    rw [if_neg hidle] at hscalar
    refine ⟨hcmd.trans (issue_of_fault (s := { s with order := rest }) hf v), hscalar, fun i hi => ?_⟩
    obtain ⟨hlimbA, hlimbB, -⟩ := hlimbs i hi
    rw [if_neg hidle] at hlimbA hlimbB
    exact ⟨hlimbA, hlimbB⟩
  · have hb := hinv.block.status_form.idle_of_fault hf
    refine ⟨hb, fun hstep => ?_⟩
    have hkeep := (step_move hstep).2.keeps_record_or_resets hf hb
    rwa [hinv.block.inflight_eq_none hb] at hkeep

end Sys2Proof.Machine
end

section
/-! ### The round trip of the CMD word (R30, R46, R49, R50, R54, R59) -/

namespace Sys2Proof

/-- Settles O8: the word of a command has its command's fields, and MM1 and BITSIZE give M and k back
(`decode_encode`). -/
theorem decodeOfEncode : Obligations.DecodeOfEncode :=
  fun _ hwf => decode_encode hwf

/-- Settles O9: what decodes has fields in range (`wellFormed_of_decode`), and its word is made of the same six fields
(`encode_of_decode`). -/
theorem encodeOfDecode : Obligations.EncodeOfDecode :=
  fun _ _ hd => ⟨wellFormed_of_decode hd, encode_of_decode hd⟩

/-- Byte j of a word is digit j of its value in base 256 (R30). -/
theorem toNat_wordByte (w : Word) (j : Nat) : (wordByte w j).toNat = w.toNat / 2 ^ (8 * j) % 2 ^ 8 := by
  rw [wordByte, BitVec.extractLsb'_toNat, Nat.shiftRight_eq_div_pow]

/-- The eight bytes of a word have its value (R30). -/
theorem natOfBytes_bytesOfWord (w : Word) : natOfBytes (bytesOfWord w) = w.toNat := by
  have hw := w.isLt
  simp only [bytesOfWord, natOfBytes, toNat_wordByte]
  omega

theorem decodeBytes_bytesOfWord (w : Word) : decodeBytes (bytesOfWord w) = (decode w).toOption := by
  rw [decodeBytes, if_pos (show (bytesOfWord w).length = 8 from rfl), natOfBytes_bytesOfWord,
    BitVec.ofNat_toNat, BitVec.setWidth_eq]

/-- Settles O14: the bytes have the word's value (`natOfBytes_bytesOfWord`), and a table word of 64 bits is laid out in
them. -/
theorem bytesDecodeAsTheWord : Obligations.BytesDecodeAsTheWord := by
  intro w
  have hmod : w.toNat % 2 ^ 64 = w.toNat := Nat.mod_eq_of_lt w.isLt
  refine ⟨decodeBytes_bytesOfWord w, ?_⟩
  rw [decodeTableWord, hmod, if_pos w.isLt, BitVec.ofNat_toNat, BitVec.setWidth_eq, decodeBytes_bytesOfWord]

/-- A decoded command that uses M takes MM1 + 1 (R49). -/
theorem limbCount_of_decode {w : Word} {i : Instr} (h : decode w = .ok i) (hu : i.op.usesMM1 = true) (n : Nat) :
    i.limbCount n = (mm1Field w).toNat + 1 := by
  obtain ⟨op, -, rfl⟩ := decode_eq_ok_iff.mp h
  rw [Op.op_instr] at hu
  rw [Op.limbCount_instr, if_pos hu]

/-- A decoded command that uses k takes BITSIZE (R50). -/
theorem bitWidth_of_decode {w : Word} {i : Instr} (h : decode w = .ok i) (hu : i.op.usesBitsize = true) (n : Nat) :
    i.bitWidth n = (bitsizeField w).toNat := by
  obtain ⟨op, -, rfl⟩ := decode_eq_ok_iff.mp h
  rw [Op.op_instr] at hu
  rw [Op.bitWidth_instr, if_pos hu]

/-- Settles O12: the M and the k of a decoded command are those of its word (`limbCount_of_decode`,
`bitWidth_of_decode`), in the range of their fields. -/
theorem fieldsGiveMAndK : Obligations.FieldsGiveMAndK := by
  intro w
  have hmm1 := (mm1Field w).isLt
  have hbits := (bitsizeField w).isLt
  refine ⟨fun m hd => ?_, fun k hd => ?_⟩
  · have hm : m = (mm1Field w).toNat + 1 :=
      hd.elim (fun hd => limbCount_of_decode hd rfl 0) (fun hd => limbCount_of_decode hd rfl 0)
    exact ⟨hm, by omega, by omega⟩
  · have hk : k = (bitsizeField w).toNat :=
      hd.elim (fun hd => bitWidth_of_decode hd rfl 0) (fun hd => bitWidth_of_decode hd rfl 0)
    exact ⟨hk, by omega⟩

/-- Settles O13: each of the eight words decodes to its command. -/
theorem writtenOutWordsDecode : Obligations.WrittenOutWordsDecode := by
  unfold Obligations.WrittenOutWordsDecode
  decide

end Sys2Proof
end

section
/-! ### The invariant: it holds at reset, and every step keeps it (R15, R16, R26, R93) -/

namespace Sys2Proof.Machine

/-! #### The forms of STATUS (R15) -/

/-- BUSY = 1 in one form alone. -/
theorem Block.StatusForm.isBusy {b : Block} (h : b.StatusForm) (hb : b.busy = true) : b.IsBusy := by
  obtain ⟨h0, -⟩ | h | ⟨h0, -⟩ | ⟨h0, -⟩ := h
  · exact absurd (hb.symm.trans h0) (by decide)
  · exact h
  · exact absurd (hb.symm.trans h0) (by decide)
  · exact absurd (hb.symm.trans h0) (by decide)

/-- Without a fault FCODE is 0. -/
theorem Block.StatusForm.fcode_eq_zero {b : Block} (h : b.StatusForm) (hf : b.fault = false) : b.fcode = 0 := by
  obtain ⟨-, -, -, hc⟩ | ⟨-, -, -, hc⟩ | ⟨-, -, -, hc⟩ | ⟨-, -, h1, -⟩ := h
  · exact hc
  · exact hc
  · exact hc
  · exact absurd (hf.symm.trans h1) (by decide)

theorem FaultCode.code_bounds (code : FaultCode) : 1 ≤ code.code.toNat ∧ code.code.toNat ≤ 4 := by
  cases code <;> decide

/-! #### The block -/

theorem Block.reset_inv (c : Config) : (Block.reset c).Inv c where
  a_length := List.length_replicate
  b_length := List.length_replicate
  r_length := List.length_replicate
  status_form := .inl ⟨rfl, rfl, rfl, rfl⟩
  inflight_iff_busy := rfl
  inflight_legal _ h := nomatch h
  faddr_offset := show 0 < 0x4000 by decide
  no_record_unless_fault _ := ⟨rfl, rfl⟩

/-- Settles O5: the reset block has N zero limbs, the form IDLE and no record. -/
theorem resetMeetsTheInvariant : Obligations.ResetMeetsTheInvariant :=
  fun c => ⟨Block.reset_inv c, rfl⟩

/-- While BUSY the block has no fault and FCODE 0 (R15). -/
theorem Block.Inv.no_fault_of_busy {c : Config} {b : Block} (h : b.Inv c) (hb : b.busy = true) :
    b.fault = false ∧ b.fcode = 0 := by
  obtain ⟨-, -, hf, hc⟩ := h.status_form.isBusy hb
  exact ⟨hf, hc⟩

theorem Block.Inv.completed {c : Config} {b : Block} (h : b.Inv c) (hb : b.busy = true) {y : List Word}
    (hy : y.length = c.n) : (b.completed y).Inv c where
  a_length := h.a_length
  b_length := h.b_length
  r_length := hy
  status_form := .inr (.inr (.inl ⟨rfl, rfl, h.no_fault_of_busy hb⟩))
  inflight_iff_busy := rfl
  inflight_legal _ hg := nomatch hg
  faddr_offset := h.faddr_offset
  no_record_unless_fault := h.no_record_unless_fault

theorem Block.Inv.faulted {c : Config} {b : Block} (h : b.Inv c) (code : FaultCode) {off : Nat} (data : Word)
    (ho : off < 0x4000) : (b.faulted code.code (BitVec.ofNat 64 off) data).Inv c where
  a_length := h.a_length
  b_length := h.b_length
  r_length := h.r_length
  status_form := .inr (.inr (.inr ⟨rfl, rfl, rfl, code.code_bounds⟩))
  inflight_iff_busy := rfl
  inflight_legal _ hg := nomatch hg
  faddr_offset := (Nat.mod_le off (2 ^ 64)).trans_lt ho
  no_record_unless_fault hf := nomatch hf

/-- An accepted command is legal and held in INFLIGHT as R54 gives it (R21, R56). -/
theorem Block.Inv.accepted {c : Config} {b : Block} (h : b.Inv c) (hf : b.fault = false) {i : Instr}
    (hl : i.Legal c) : (b.accepted c i).Inv c where
  a_length := h.a_length
  b_length := h.b_length
  r_length := h.r_length
  status_form := .inr (.inl ⟨rfl, rfl, hf, h.status_form.fcode_eq_zero hf⟩)
  inflight_iff_busy := rfl
  inflight_legal g hg := by
    obtain rfl := Option.some.inj hg
    rw [Inflight.Legal, Inflight.instr_mk]
    exact ⟨hl, rfl⟩
  faddr_offset := h.faddr_offset
  no_record_unless_fault := h.no_record_unless_fault

/-- An operand takes part in no clause but those on lengths. -/
theorem Block.Inv.withOperands {c : Config} {b : Block} (h : b.Inv c) {as bs : List Word} (v : Word)
    (ha : as.length = c.n) (hb : bs.length = c.n) : Block.Inv c { b with a := as, b := bs, scalar := v } where
  a_length := ha
  b_length := hb
  r_length := h.r_length
  status_form := h.status_form
  inflight_iff_busy := h.inflight_iff_busy
  inflight_legal := h.inflight_legal
  faddr_offset := h.faddr_offset
  no_record_unless_fault := h.no_record_unless_fault

/-- A word's M is at least 1, and so is N (R1, R49). -/
theorem one_le_limbCount {i : Instr} (h : i.WellFormed) (c : Config) : 1 ≤ i.limbCount c.n := by
  cases i with
  | zero | fromsc | add | mul | addmod k | mulmod k => exact c.n_pos
  | addm m | mulm m => exact (of_decide_eq_true h).1

/-- Every block a turn can leave meets the invariant. -/
theorem BlockMove.inv {s : State} {b : Block} (h : BlockMove s b) (hi : s.block.Inv s.cfg) : b.Inv s.cfg := by
  cases h with
  | same => exact hi
  | reset => exact Block.reset_inv s.cfg
  | completed busy => exact hi.completed busy (length_commandLimbs s _)
  | faulted code data window => exact hi.faulted code data window
  | accepted ready decoded size width =>
    exact hi.accepted ready.2 ⟨one_le_limbCount (wellFormed_of_decode decoded) s.cfg, size, width⟩
  | scalar v => exact hi.withOperands v hi.a_length hi.b_length
  | limbA => exact hi.withOperands _ (List.length_set.trans hi.a_length) hi.b_length
  | limbB => exact hi.withOperands _ hi.a_length (List.length_set.trans hi.b_length)

/-! #### What the block's operations leave outside the block -/

/-- A command's step changes the block alone. -/
theorem exec_eq_block {i : Instr} {s t : State} (h : exec i s = .next t) : t = { s with block := t.block } := by
  obtain ⟨-, rfl⟩ | ⟨-, rfl⟩ | ⟨-, _, rfl⟩ | ⟨-, -, -, rfl⟩ := exec_cases h <;> rfl

theorem issue_eq_block {w : Word} {s t : State} (h : issue w s = .next t) : t = { s with block := t.block } := by
  obtain ⟨-, h'⟩ | ⟨_, h'⟩ | ⟨-, i, -, h'⟩ := issue_cases w s <;> rw [h'] at h
  · cases h; rfl
  · cases h; rfl
  · exact exec_eq_block h

theorem windowWrite_eq_block {off : Nat} {v : Word} {s t : State} (h : windowWrite off v s = .next t) :
    t = { s with block := t.block } := by
  obtain h' | h' | h' | ⟨put, h', -⟩ := windowWrite_cases off v s <;> rw [h'] at h
  · cases h; rfl
  · cases h; rfl
  · exact issue_eq_block h
  · cases h
    unfold writeOperand
    split <;> rfl

/-- An access changes the block and the data of the last read. -/
theorem portAccess_eq_block {x : Access} {s t : State} (h : portAccess x s = .next t) :
    t = { s with block := t.block, lastRead := t.lastRead } := by
  unfold portAccess at h
  split_ifs at h
  · cases x with
    | read addr n => cases h; rfl
    | write addr n v =>
      have ht := windowWrite_eq_block h
      rw [ht]
  · cases h; rfl

/-- The datapath's turn changes the block alone. -/
theorem completeTurn_eq_block {s t : State} (h : completeTurn s = .next t) : t = { s with block := t.block } := by
  unfold completeTurn at h
  split at h
  · split at h
    · exact exec_eq_block h
    · cases h
  · cases h; rfl

/-! #### The host's variables (log 9) -/

/-- A host statement leaves the variables, or sets one. -/
theorem hostStmt_vars {st : Stmt} {s t : State} (h : hostStmt st s = .next t) :
    t.host.vars = s.host.vars ∨ ∃ x v, t.host.vars = varSet s.host.vars x v := by
  have port : ∀ {x : Access} {u : State}, portAccess x (advance s) = .next u → u.host.vars = s.host.vars :=
    fun hu => by rw [portAccess_eq_block hu]; rfl
  have branch : ∀ {l : Nat} {u : State}, jump l s = .next u → u.host.vars = s.host.vars := fun hu => by
    unfold jump at hu
    split at hu <;> cases hu
    rfl
  cases st with
  | wr x v =>
    simp only [hostStmt, hostWrite] at h
    split at h
    · exact .inl (port h)
    · cases h
  | rd x v =>
    simp only [hostStmt, hostRead] at h
    split at h
    · split at h <;> cases h
      next u hu => exact .inr ⟨v, _, by rw [setVar_vars, port hu]⟩
    · cases h
  | label l | halt => cases h; exact .inl rfl
  | bnz v imm l | bz v imm l =>
    simp only [hostStmt] at h
    split at h
    · exact .inl (branch h)
    · cases h; exact .inl rfl
  | sum v vs => cases h; exact .inr ⟨v, _, rfl⟩

theorem hostTurn_varsCanon {s t : State} (h : hostTurn s = .next t) (hv : varsCanon s.host.vars = true) :
    varsCanon t.host.vars = true := by
  unfold hostTurn at h
  split at h
  · obtain hsame | ⟨x, v, hset⟩ := hostStmt_vars h
    · rw [hsame]; exact hv
    · rw [hset]; exact varSet_canonFrom v hv x.zero_le
  · cases h; exact hv

/-- No turn but the host's changes the variables. -/
theorem step_varsCanon {s t : State} (h : step s = .next t) (hv : varsCanon s.host.vars = true) :
    varsCanon t.host.vars = true := by
  unfold step nextTurn at h
  split at h
  next e rest _ =>
    cases e with
    | host => exact hostTurn_varsCanon (s := { s with order := rest }) h hv
    | access x => rw [portAccess_eq_block (s := { s with order := rest }) h]; exact hv
    | complete => rw [completeTurn_eq_block (s := { s with order := rest }) h]; exact hv
    | reset => cases h; exact hv
  next =>
    unfold idleTurn at h
    split at h
    · rw [completeTurn_eq_block h]; exact hv
    · exact hostTurn_varsCanon h hv

/-- Every step keeps the invariant: the turn makes one `BlockMove`, and the host sets a variable at most. -/
theorem step_inv {s t : State} (hi : s.Inv) (h : step s = .next t) : t.Inv := by
  obtain ⟨hcfg, hmove⟩ := step_move h
  exact ⟨hcfg.symm ▸ hmove.inv hi.block, step_varsCanon h hi.vars⟩

/-- Settles O6: the block by the move a turn makes (`BlockMove.inv`), the variables by the one a host statement sets
(`step_varsCanon`). -/
theorem everyStepKeepsTheInvariant : Obligations.EveryStepKeepsTheInvariant :=
  fun _ _ => step_inv

end Sys2Proof.Machine
end

section
/-! ### Reset, STATUS, and what stays in the window (R7, R14, R15, R22, R28, R32, R93, R95) -/

namespace Sys2Proof.Machine

/-! #### Reset (R93, R95) -/

theorem step_reset (s : State) (rest : List Event) :
    step { s with order := .reset :: rest } = .next (s.setBlock (Block.reset s.cfg) rest) := rfl

/-- With BUSY = 0 the datapath's turn passes (log 2). -/
theorem step_complete_idle {s : State} (hb : s.block.busy = false) (rest : List Event) :
    step { s with order := .complete :: rest } = .next { s with order := rest } :=
  if_neg (by simp [hb])

/-- Settles O1: the row of R93's table is `Block.reset`, whose values the reads are. -/
theorem resetSetsEveryRegister : Obligations.ResetSetsEveryRegister := by
  rintro s rest b rfl
  exact ⟨step_reset s rest, rfl, rfl, val_zeros s.cfg.n, rfl, rfl, rfl⟩

/-- Settles O3: either reset leaves the reset block, which is not BUSY, so the datapath's turn passes
(`step_complete_idle`). -/
theorem resetAbandonsTheCommandInFlight : Obligations.ResetAbandonsTheCommandInFlight := by
  intro s v rest _ hv
  have hidle := step_complete_idle (s := s.setBlock (Block.reset s.cfg) []) rfl rest
  refine ⟨⟨_, step_reset s _, hidle⟩, ⟨_, ?_, hidle⟩⟩
  rw [step_withWrite_ctrl, writeCtrl_set hv]
  rfl

/-! #### STATUS (R14, R15) -/

/-- STATUS is its fields at their weights (R14). -/
theorem statusWord_toNat (b : Block) :
    (statusWord b).toNat = b.busy.toNat + 2 * b.done.toNat + 4 * b.fault.toNat + 16 * b.fcode.toNat := by
  have h0 := b.busy.toNat_le
  have h1 := b.done.toNat_le
  have h2 := b.fault.toNat_le
  have hc := b.fcode.isLt
  rw [statusWord, BitVec.toNat_ofNat, Nat.mod_eq_of_lt (by omega)]

theorem statusWord_of_form {b : Block} (h : b.StatusForm) :
    statusWord b = 0x0 ∨ statusWord b = 0x1 ∨ statusWord b = 0x2 ∨ statusWord b = 0x14 ∨ statusWord b = 0x24 ∨
      statusWord b = 0x34 ∨ statusWord b = 0x44 := by
  have hv := statusWord_toNat b
  simp only [← BitVec.toNat_inj]
  obtain ⟨h0, h1, h2, hc⟩ | ⟨h0, h1, h2, hc⟩ | ⟨h0, h1, h2, hc⟩ | ⟨h0, h1, h2, hlo, hhi⟩ := h
  · rw [h0, h1, h2, hc] at hv; exact .inl hv
  · rw [h0, h1, h2, hc] at hv; exact .inr (.inl hv)
  · rw [h0, h1, h2, hc] at hv; exact .inr (.inr (.inl hv))
  · rw [h0, h1, h2] at hv
    simp only [Bool.toNat_false, Bool.toNat_true, BitVec.ofNat_eq_ofNat, BitVec.toNat_ofNat] at hv ⊢
    omega

/-- Settles O50: each field is a digit of the value (`statusWord_toNat`), which is below 2^8. -/
theorem statusWordBits : Obligations.StatusWordBits := by
  intro b
  have hv := statusWord_toNat b
  have h0 := b.busy.toNat_le
  have h1 := b.done.toNat_le
  have h2 := b.fault.toNat_le
  have hc := b.fcode.isLt
  have hbit : ∀ {j : Nat} {x : Bool}, (statusWord b).toNat / 2 ^ j % 2 = x.toNat → (statusWord b).getLsbD j = x :=
    fun {j x} h => by
      rw [← BitVec.testBit_toNat, Nat.testBit_eq_decide_div_mod_eq, h]
      cases x <;> rfl
  refine ⟨hbit (by omega), hbit (by omega), hbit (by omega), hbit (x := false) (by simp only [Bool.toNat_false]; omega),
    ?_, fun j hj => ?_, statusWord_of_form⟩
  · rw [← BitVec.toNat_inj, BitVec.extractLsb'_toNat, Nat.shiftRight_eq_div_pow]
    omega
  · have hpow : 2 ^ 8 ≤ 2 ^ j := Nat.pow_le_pow_right (by decide) hj
    exact hbit (x := false) (by rw [Nat.div_eq_of_lt (by omega)]; rfl)

/-! #### Limb vectors (R7) -/

/-- A limb vector's value is the sum of its limbs at their weights (R7). -/
theorem val_eq_sum (xs : List Word) : val xs = ∑ i ∈ Finset.range xs.length, (xs.getD i 0).toNat * 2 ^ (64 * i) := by
  induction xs with
  | nil => rfl
  | cons x xs ih =>
    have htail : ∀ i, ((x :: xs).getD (i + 1) 0).toNat * 2 ^ (64 * (i + 1)) =
        2 ^ 64 * ((xs.getD i 0).toNat * 2 ^ (64 * i)) := fun i => by
      rw [List.getD_cons_succ, pow_limbs_succ, Nat.mul_left_comm]
    have hhead : ((x :: xs).getD 0 0).toNat * 2 ^ (64 * 0) = x.toNat := by
      rw [List.getD_cons_zero, Nat.mul_zero, pow_zero, Nat.mul_one]
    rw [List.length_cons, Finset.sum_range_succ', hhead, Finset.sum_congr rfl fun i _ => htail i, ← Finset.mul_sum,
      ← ih, val_cons, Nat.add_comm]

/-- Settles O36: `val` is the sum (`val_eq_sum`), `val_pack` inverts it, and a limb is a digit of the value
(`toNat_getD_eq`), which the limbs above it do not change. -/
theorem packInvertsVal : Obligations.PackInvertsVal := by
  refine ⟨val_eq_sum, fun v n => ⟨val_pack v n, length_pack v n, fun i hi => ?_⟩⟩
  have hpow : (2 : Nat) ^ (64 * n) = 2 ^ (64 * i) * (2 ^ 64 * 2 ^ (64 * (n - (i + 1)))) := by
    rw [← pow_add, ← pow_add]
    congr 1
    omega
  rw [toNat_getD_eq, val_pack, hpow, Nat.mod_mul_right_div_self, Nat.mod_mul_right_mod]

/-! #### What a read does not see -/

/-- An offset reads as before when its register, if it has one, does. -/
theorem windowRead_congr {c : Config} {b b' : Block} {off : Nat}
    (h : ∀ x : Reg, x.present c.n → off = x.offset → readReg c b' x = readReg c b x) :
    windowRead c b' off = windowRead c b off := by
  cases hd : decodeOffset c off with
  | none => rw [windowRead_reserved hd, windowRead_reserved hd]
  | some x =>
    obtain ⟨rfl, hx⟩ := decodeOffset_eq_some_iff.mp hd
    rw [windowRead_offset hx, windowRead_offset hx, h x hx rfl]

/-- Offsets outside R, STATUS, FADDR and FDATA show A, B, SCALAR and constants only. -/
theorem windowRead_of_operands_eq {c : Config} {b b' : Block} (ha : b'.a = b.a) (hb : b'.b = b.b)
    (hs : b'.scalar = b.scalar) {off : Nat} (hr : ∀ i, i < c.n → off ≠ 0x3000 + 8 * i) (hstatus : off ≠ 0x10)
    (hfaddr : off ≠ 0x28) (hfdata : off ≠ 0x30) : windowRead c b' off = windowRead c b off := by
  refine windowRead_congr fun x hx hoff => ?_
  cases x with
  | param | ctrl | cmd => rfl
  | scalar => exact hs
  | status => exact absurd hoff hstatus
  | faddr => exact absurd hoff hfaddr
  | fdata => exact absurd hoff hfdata
  | a i => rw [readReg, readReg, ha]
  | b i => rw [readReg, readReg, hb]
  | r i => exact absurd hoff (hr i hx)

/-- No step of a command writes an operand. -/
theorem exec_operands {i : Instr} {s t : State} (h : exec i s = .next t) :
    t.block.a = s.block.a ∧ t.block.b = s.block.b ∧ t.block.scalar = s.block.scalar := by
  obtain ⟨-, rfl⟩ | ⟨-, rfl⟩ | ⟨-, _, rfl⟩ | ⟨-, -, -, rfl⟩ := exec_cases h <;> exact ⟨rfl, rfl, rfl⟩

/-- Settles O34: a command's step changes the block alone (`exec_eq_block`), and no operand in it (`exec_operands`); a
byte outside R, STATUS, FADDR and FDATA lies in a word that shows nothing else (`windowRead_of_operands_eq`). -/
theorem commandsNeverTouchTheOperands : Obligations.CommandsNeverTouchTheOperands := by
  intro i s t h
  have ht := exec_eq_block h
  obtain ⟨ha, hb, hs⟩ := exec_operands h
  have hcfg : t.cfg = s.cfg := by rw [ht]
  refine ⟨ha, hb, hs, hcfg, by rw [ht], by rw [ht], by rw [ht], fun addr hr hstatus hrecord => ?_⟩
  rw [windowByte, windowByte, hcfg, windowRead_of_operands_eq ha hb hs (fun j hj => by omega) (by omega) (by omega)
    (by omega)]

/-! #### Operand writes (R33) -/

/-- The operand registers of a block of n limbs (R10, R11, R13). -/
inductive Reg.IsOperand (n : Nat) : Reg → Prop where
  | scalar : Reg.IsOperand n .scalar
  | a {i : Nat} (h : i < n) : Reg.IsOperand n (.a i)
  | b {i : Nat} (h : i < n) : Reg.IsOperand n (.b i)

/-- The block with v in an operand register; no other register is one. -/
def Block.setOperand (v : Word) (b : Block) : Reg → Block
  | .scalar => { b with scalar := v }
  | .a i => { b with a := b.a.set i v }
  | .b i => { b with b := b.b.set i v }
  | .param | .ctrl | .status | .cmd | .faddr | .fdata | .r _ => b

theorem Reg.IsOperand.present {n : Nat} {x : Reg} (h : x.IsOperand n) : x.present n := by
  cases h with
  | scalar => trivial
  | a hi | b hi => exact hi

/-- The offsets of the operand registers (R19). -/
theorem exists_operand_of_offset {n off : Nat}
    (h : off = 0x20 ∨ ∃ i, i < n ∧ (off = 0x1000 + 8 * i ∨ off = 0x2000 + 8 * i)) :
    ∃ x : Reg, x.IsOperand n ∧ off = x.offset := by
  obtain rfl | ⟨i, hi, rfl | rfl⟩ := h
  · exact ⟨_, .scalar, rfl⟩
  · exact ⟨_, .a hi, rfl⟩
  · exact ⟨_, .b hi, rfl⟩

theorem windowWrite_operand {s : State} {x : Reg} (hx : x.IsOperand s.cfg.n) (v : Word) :
    windowWrite x.offset v s = .next (writeOperand x.offset v (fun b => b.setOperand v x) s) := by
  cases hx with
  | scalar => exact windowWrite_scalar v s
  | a hi => exact windowWrite_a hi
  | b hi => exact windowWrite_b hi

theorem windowWrite_operand_idle {s : State} (hb : s.block.busy = false) {x : Reg} (hx : x.IsOperand s.cfg.n)
    (v : Word) : windowWrite x.offset v s = .next { s with block := s.block.setOperand v x } := by
  rw [windowWrite_operand hx, writeOperand_idle hb]

/-- A written limb reads back. -/
theorem limbAt_set_self {xs : List Word} {i : Nat} (h : i < xs.length) (v : Word) : limbAt (xs.set i v) i = v := by
  rw [limbAt, List.getD_eq_getElem?_getD, List.getElem?_set_self h, Option.getD_some]

/-- Any other limb stays. -/
theorem limbAt_set_of_ne {i j : Nat} (h : i ≠ j) (xs : List Word) (v : Word) :
    limbAt (xs.set i v) j = limbAt xs j := by
  rw [limbAt, limbAt, List.getD_eq_getElem?_getD, List.getD_eq_getElem?_getD, List.getElem?_set_ne h]

theorem readReg_setOperand_self {c : Config} {b : Block} (hi : b.Inv c) {x : Reg} (hx : x.IsOperand c.n) (v : Word) :
    readReg c (b.setOperand v x) x = v := by
  cases hx with
  | scalar => rfl
  | a h => exact limbAt_set_self (h.trans_eq hi.a_length.symm) v
  | b h => exact limbAt_set_self (h.trans_eq hi.b_length.symm) v

theorem readReg_setOperand_of_ne {n : Nat} {x y : Reg} (hx : x.IsOperand n) (hne : y ≠ x) (c : Config) (b : Block)
    (v : Word) : readReg c (b.setOperand v x) y = readReg c b y := by
  cases hx with
  | scalar =>
    cases y with
    | scalar => exact absurd rfl hne
    | _ => rfl
  | @a i _ =>
    cases y with
    | a j => exact limbAt_set_of_ne (fun h : i = j => hne (congrArg Reg.a h.symm)) b.a v
    | _ => rfl
  | @b i _ =>
    cases y with
    | b j => exact limbAt_set_of_ne (fun h : i = j => hne (congrArg Reg.b h.symm)) b.b v
    | _ => rfl

/-- Settles O46: the write sets the one register at the offset (`windowWrite_operand_idle`), which reads back
(`readReg_setOperand_self`); every other offset has another register or none. -/
theorem operandWriteReadsBack : Obligations.OperandWriteReadsBack := by
  intro s rest v off hinv hidle hoff
  obtain ⟨x, hx, rfl⟩ := exists_operand_of_offset hoff
  obtain ⟨hlt, h8⟩ := offset_lt hx.present
  refine ⟨s.setBlock (s.block.setOperand v x) rest, ?_, ?_, fun off' hne => windowRead_congr fun y _ hy => ?_⟩
  · rw [step_withWrite hlt h8]
    exact windowWrite_operand_idle (s := { s with order := rest }) hidle hx v
  · exact (windowRead_offset hx.present _).trans (readReg_setOperand_self hinv.block hx v)
  · exact readReg_setOperand_of_ne hx (fun hyx => hne (hyx ▸ hy)) s.cfg s.block v

/-- Settles O48: such an access does not reach the window, and passes (log 7). -/
theorem accessesOutsideTheWindowAreNotTheBlocks : Obligations.AccessesOutsideTheWindowAreNotTheBlocks := by
  intro s rest x hout
  have hreach : reachesWindow s.cfg x = false := decide_eq_false (by omega)
  exact if_neg (ne_true_of_eq_false hreach)

end Sys2Proof.Machine
end

section
/-! ### The order of turns (R12, R21, R29, R36, R37, R58, R79, R97, R102) -/

namespace Sys2Proof.Machine

/-! #### Every well-posed turn has a next state -/

/-- An access that is admitted, or not the block's, has a next state (R28, R29). -/
theorem portAccess_next {x : Access} {s : State} (h : reachesWindow s.cfg x = true → admitted s.cfg x = true) :
    ∃ t, portAccess x s = .next t := by
  unfold portAccess
  split_ifs with hr ha
  · cases x with
    | read addr n => exact ⟨_, rfl⟩
    | write addr n v => exact windowWrite_next _ v s
  · exact absurd (h hr) ha
  · exact ⟨s, rfl⟩

/-- A host write to a register of the map is a write of the window there (R59). -/
theorem hostWrite_inMap {x : Reg} (h : x.inMap = true) (v : Word) (s : State) :
    hostWrite x v s = windowWrite x.offset v s := by
  obtain ⟨hlt, h8⟩ := offset_of_inMap h
  rw [hostWrite, if_pos h, portAccess_write hlt h8]

/-- A host read of a register of the map puts the window's data into its variable (R59). -/
theorem hostRead_inMap {x : Reg} (h : x.inMap = true) (t : Nat) (s : State) :
    hostRead x t s = .next (setVar t (windowRead s.cfg s.block x.offset).toNat
      { s with lastRead := some (windowRead s.cfg s.block x.offset) }) := by
  obtain ⟨hlt, h8⟩ := offset_of_inMap h
  rw [hostRead, if_pos h, portAccess_read hlt h8]
  rfl

/-- A statement an assembler accepts has a next state (R59). -/
theorem hostStmt_next {st : Stmt} {s : State} (h : st.assembled s.host.program = true) :
    ∃ t, hostStmt st s = .next t := by
  cases st with
  | wr x v =>
    rw [hostStmt, hostWrite_inMap h]
    exact windowWrite_next _ _ _
  | rd x t => exact ⟨_, hostRead_inMap h t (advance s)⟩
  | label l | halt | sum t ts => exact ⟨_, rfl⟩
  | bnz t imm l | bz t imm l =>
    obtain ⟨u, hu, -⟩ := jump_next h
    simp only [hostStmt]
    split
    · exact ⟨u, hu⟩
    · exact ⟨_, rfl⟩

theorem hostTurn_next {s : State} (h : ∀ st ∈ s.host.program, st.assembled s.host.program = true) :
    ∃ t, hostTurn s = .next t := by
  unfold hostTurn
  split
  next st hst => exact hostStmt_next (h st (List.mem_of_getElem? hst))
  next => exact ⟨s, rfl⟩

/-- While BUSY a command is in flight (R26). -/
theorem Block.Inv.exists_inflight {c : Config} {b : Block} (h : b.Inv c) (hb : b.busy = true) :
    ∃ f, b.inflight = some f :=
  Option.isSome_iff_exists.mp (h.inflight_iff_busy.trans hb)

theorem Block.Inv.busy_of_inflight {c : Config} {b : Block} (h : b.Inv c) {f : Inflight} (hf : b.inflight = some f) :
    b.busy = true := by
  rw [← h.inflight_iff_busy, hf]
  rfl

/-- The datapath's turn completes the command in flight with N limbs of its value (R58). -/
theorem completeTurn_value {s : State} {f : Inflight} (hi : s.block.Inv s.cfg) (hf : s.block.inflight = some f) :
    ∃ y, completeTurn s = .next (complete y s) ∧ y.length = s.cfg.n ∧
      val y = commandValue s.cfg s.block f.instr := by
  obtain ⟨hlegal, -⟩ := hi.inflight_legal f hf
  exact ⟨_, completeTurn_inflight (hi.busy_of_inflight hf) hf, length_commandLimbs s _, val_commandLimbs hi hlegal⟩

theorem completeTurn_next {s : State} (hi : s.block.Inv s.cfg) : ∃ t, completeTurn s = .next t := by
  cases hb : s.block.busy with
  | false => exact ⟨s, if_neg (by simp [hb])⟩
  | true =>
    obtain ⟨f, hf⟩ := hi.exists_inflight hb
    exact ⟨_, completeTurn_inflight hb hf⟩

/-- Settles O7: each agent's turn has a next state: the host's at an assembled statement (`hostTurn_next`), an access
that is admitted or not the block's (`portAccess_next`), and the datapath's, since BUSY comes with a command in flight
(`completeTurn_next`). -/
theorem wellPosedTurnsAlwaysStep : Obligations.WellPosedTurnsAlwaysStep := by
  intro s hinv hposed
  unfold step nextTurn
  split
  next e rest horder =>
    cases e with
    | host => exact hostTurn_next (s := { s with order := rest }) hposed.program
    | access x =>
      have hx : .access x ∈ s.order := horder ▸ List.mem_cons_self
      exact portAccess_next (s := { s with order := rest }) (hposed.order x hx)
    | complete => exact completeTurn_next (s := { s with order := rest }) hinv.block
    | reset => exact ⟨_, rfl⟩
  next =>
    unfold idleTurn
    split
    · exact completeTurn_next hinv.block
    · exact hostTurn_next hposed.program

/-! #### A turn is the command's step (R37, R46, R59) -/

theorem withFetchWord_eq (s : State) (w : Word) : s.withFetchWord 64 w.toNat = s.withWrite 0x18 w s.order := by
  rw [State.withFetchWord, Nat.mod_eq_of_lt w.isLt, BitVec.ofNat_toNat, BitVec.setWidth_eq]
  rfl

/-- Settles O15: a CMD write is `Issue` of the word (`step_withWrite_cmd`), and in a block that can take a command that
is the decoded command (`issue_of_legal`). -/
theorem stepRunsTheWrittenCommand : Obligations.StepRunsTheWrittenCommand := by
  intro s rest w i hd hready
  have hwrite : ∀ turns, step (s.withWrite 0x18 w turns) = exec i { s with order := turns } := fun turns => by
    rw [step_withWrite_cmd, issue_of_legal (s := { s with order := turns }) hready hd]
  exact ⟨hwrite rest, withFetchWord_eq s w ▸ hwrite s.order⟩

/-- The host's turn runs the statement at its position (R59). -/
theorem step_host {s : State} {st : Stmt} (hst : s.host.program[s.host.pos]? = some st) (rest : List Event) :
    step { s with order := .host :: rest } = hostStmt st { s with order := rest } := by
  show hostTurn { s with order := rest } = _
  rw [hostTurn, hst]

/-- Settles O16: the host's write goes to CMD (`hostWrite_inMap`), so it is `Issue` of the word, and that is the decoded
command (`issue_of_legal`). -/
theorem stepRunsTheHostsCommand : Obligations.StepRunsTheHostsCommand := by
  intro s rest w i hd hready hst
  rw [step_host hst, hostStmt, hostWrite_inMap rfl]
  exact issue_of_legal (s := advance { s with order := rest }) hready hd

theorem completeTurn_running {s : State} {i : Instr} (h : s.Running i) : completeTurn s = exec i s := by
  rw [completeTurn_inflight h.1 h.2, Inflight.instr_mk, exec_running h]
  rfl

/-- Settles O17: the datapath's turn runs the command in flight (`completeTurn_running`), and with BUSY = 1 the turn is
the datapath's where none is laid down. -/
theorem stepRunsTheCommandInFlight : Obligations.StepRunsTheCommandInFlight := by
  intro s rest i h
  exact ⟨completeTurn_running (s := { s with order := rest }) h,
    (if_pos h.1).trans (completeTurn_running (s := { s with order := [] }) h)⟩

/-! #### While a command is in flight (R12, R21, R41) -/

/-- Settles O52: of the moves a turn can make, those that end BUSY are none at all and an acceptance, which needs a
block that is not BUSY; so does an operand write. -/
theorem operandsAreFrozenWhileBusy : Obligations.OperandsAreFrozenWhileBusy := by
  intro s t _ hb hstep ht
  obtain ⟨-, hmove⟩ := step_move hstep
  generalize t.block = b at hmove ht
  cases hmove with
  | same => rfl
  | reset | completed | faulted => cases ht
  | accepted ready => exact absurd (hb.symm.trans ready.1) (by decide)
  | scalar _ idle | limbA _ _ idle | limbB _ _ idle => exact absurd (hb.symm.trans idle) (by decide)

/-- Settles O53: of the moves a turn can make only the reset and the completion write R, the completion with N limbs of
the value of the command in flight (`val_commandLimbs`). -/
theorem onlyCompletionAndResetWriteR : Obligations.OnlyCompletionAndResetWriteR := by
  intro s t hinv hstep hr
  obtain ⟨-, hmove⟩ := step_move hstep
  generalize t.block = b at hmove hr ⊢
  cases hmove with
  | same | faulted | accepted | scalar | limbA | limbB => exact absurd rfl hr
  | reset => exact .inl rfl
  | @completed f _ inflight =>
    obtain ⟨hlegal, -⟩ := hinv.block.inflight_legal f inflight
    exact .inr ⟨f, inflight, rfl, length_commandLimbs s _, val_commandLimbs hinv.block hlegal⟩

/-- s completed the command f with N limbs of its value, and nothing else changed in the block. -/
def CompletedTo (s : State) (f : Inflight) (t : State) : Prop :=
  t.block = s.block.completed t.block.r ∧ t.block.r.length = s.cfg.n ∧
    val t.block.r = commandValue s.cfg s.block f.instr

/-- A turn that abandons nothing completes the command in flight, or it leaves the block and is taken off the order. -/
theorem step_completes_or_waits {s : State} {f : Inflight} (hi : s.Inv) (hf : s.block.inflight = some f)
    (h : s.turnHarmless = true) :
    (∃ t, step s = .next t ∧ CompletedTo s f t) ∨
    ∃ t, step s = .next t ∧ t.cfg = s.cfg ∧ t.block = s.block ∧ t.order.length + 1 = s.order.length := by
  obtain hcomplete | ⟨t, ht, hcfg, hblock, hne, horder⟩ := step_harmless h (hi.block.busy_of_inflight hf)
  · obtain ⟨y, hy, hlen, hval⟩ := completeTurn_value (s := { s with order := s.order.tail }) hi.block hf
    exact .inl ⟨_, hcomplete.trans hy, rfl, hlen, hval⟩
  · have hpos := List.length_pos_iff.mpr hne
    refine .inr ⟨t, ht, hcfg, hblock, ?_⟩
    rw [horder, List.length_tail]
    omega

/-- Settles O54, by induction on the turns laid down: each completes the command or is one less
(`step_completes_or_waits`). -/
theorem acceptedCommandsComplete : Obligations.AcceptedCommandsComplete := by
  intro s f hinv hf hharmless
  induction hn : s.order.length generalizing s with
  | zero =>
    obtain ⟨t, ht, hdone⟩ | ⟨t, -, -, -, hlen⟩ :=
      step_completes_or_waits hinv hf (hharmless 0 s (Nat.zero_le _) rfl hf)
    · exact ⟨1, t, le_refl _, run_succ 0 ht, hdone⟩
    · omega
  | succ n ih =>
    obtain ⟨t, ht, hdone⟩ | ⟨t, ht, hcfg, hblock, hlen⟩ :=
      step_completes_or_waits hinv hf (hharmless 0 s (Nat.zero_le _) rfl hf)
    · exact ⟨1, t, by omega, run_succ 0 ht, hdone⟩
    · obtain ⟨k, u, hk, hu, hdone⟩ := ih t (step_inv hinv ht) (hblock ▸ hf)
        (fun j v hj hv => hharmless (j + 1) v (by omega) ((run_succ j ht).trans hv)) (by omega)
      rw [hcfg, hblock] at hdone
      exact ⟨k + 1, u, by omega, (run_succ k ht).trans hu, hdone⟩

/-! #### Writes while BUSY (R79, R97) -/

/-- The offsets where a write while BUSY is a violation: CMD and the operands (R79). -/
def GuardedOffset (n off : Nat) : Prop :=
  off = 0x18 ∨ off = 0x20 ∨ ∃ i, i < n ∧ (off = 0x1000 + 8 * i ∨ off = 0x2000 + 8 * i)

theorem writeOperand_busy {s : State} (hb : s.block.busy = true) (off : Nat) (v : Word) (put : Block → Block) :
    writeOperand off v put s = raiseFault .busyViolation off v s :=
  if_pos hb

/-- A write to CMD or to an operand while BUSY is a busy violation and nothing else (R79). -/
theorem windowWrite_busy {s : State} (hb : s.block.busy = true) (hf : s.block.fault = false) {off : Nat}
    (h : GuardedOffset s.cfg.n off) (v : Word) :
    windowWrite off v s = .next (raiseFault .busyViolation off v s) := by
  obtain rfl | h := h
  · exact issue_of_busy hf hb v
  · obtain ⟨x, hx, rfl⟩ := exists_operand_of_offset h
    rw [windowWrite_operand hx, writeOperand_busy hb]

/-- CMD and the operands lie in the window, at multiples of 8 (R19). -/
theorem GuardedOffset.lt {c : Config} {off : Nat} (h : GuardedOffset c.n off) :
    off < 0x4000 ∧ off % 8 = 0 := by
  obtain rfl | h := h
  · decide
  · obtain ⟨x, hx, rfl⟩ := exists_operand_of_offset h
    exact offset_lt hx.present

theorem step_withWrite_busy {s : State} (hb : s.block.busy = true) (hf : s.block.fault = false) {off : Nat}
    (h : GuardedOffset s.cfg.n off) (v : Word) (rest : List Event) :
    step (s.withWrite off v rest) = .next (s.setBlock (s.block.faulted 4 (BitVec.ofNat 64 off) v) rest) := by
  obtain ⟨hlt, h8⟩ := h.lt
  rw [step_withWrite hlt h8, windowWrite_busy (s := { s with order := rest }) hb hf h]
  rfl

/-- Any other write of the window raises no fault: it resets the block or has no effect (R33, R79). -/
theorem windowWrite_keeps_no_fault {s : State} (hf : s.block.fault = false) {off : Nat} (hcmd : off ≠ 0x18)
    (hscalar : off ≠ 0x20) (hlimb : ∀ i, i < s.cfg.n → off ≠ 0x1000 + 8 * i ∧ off ≠ 0x2000 + 8 * i) (v : Word) :
    ∃ t, windowWrite off v s = .next t ∧ t.block.fault = false := by
  unfold windowWrite
  rcases hd : decodeOffset s.cfg off with _ | x
  · exact ⟨s, rfl, hf⟩
  · obtain ⟨hoff, hx⟩ := decodeOffset_eq_some_iff.mp hd
    cases x with
    | param | status | faddr | fdata | r i => exact ⟨s, rfl, hf⟩
    | ctrl =>
      refine ⟨_, rfl, ?_⟩
      unfold writeCtrl
      split
      · rfl
      · exact hf
    | cmd => exact absurd hoff hcmd
    | scalar => exact absurd hoff hscalar
    | a i => exact absurd hoff (hlimb i hx).1
    | b i => exact absurd hoff (hlimb i hx).2

/-- Settles O23: the write is a busy violation (`step_withWrite_busy`), after which BUSY = 0 and the datapath's turn
passes (`step_complete_idle`); other writes raise no fault (`windowWrite_keeps_no_fault`), and a read changes no state of
the block. -/
theorem busyViolationAbandonsTheCommand : Obligations.BusyViolationAbandonsTheCommand := by
  intro s rest v off hb hf
  refine ⟨fun hoff => ⟨_, step_withWrite_busy hb hf hoff v _, rfl, ?_⟩, fun hlt h8 => ⟨fun ⟨hcmd, hscalar, hlimb⟩ => ?_,
    ⟨_, step_withRead hlt h8 s rest, rfl⟩⟩⟩
  · exact step_complete_idle (s := s.setBlock (s.block.faulted 4 (BitVec.ofNat 64 off) v) rest) rfl rest
  · rw [step_withWrite hlt h8]
    exact windowWrite_keeps_no_fault (s := { s with order := rest }) hf hcmd hscalar hlimb v

/-- `Issue` writes no limb of R (R55, R56, R78). -/
theorem issue_r {w : Word} {s t : State} (h : issue w s = .next t) : t.block.r = s.block.r := by
  obtain ⟨-, h'⟩ | ⟨_, h'⟩ | ⟨hready, i, -, h'⟩ := issue_cases w s <;> rw [h'] at h
  · cases h; rfl
  · cases h; rfl
  · rw [exec_ready hready] at h
    split_ifs at h <;> cases h <;> rfl

/-- Settles O55. Before the completion the write is a busy violation (`step_withWrite_busy`), and the datapath's turn
passes. After it (`completeTurn_value`) BUSY = 0, so a CMD word is issued, which writes no limb of R (`issue_r`), and
an operand takes the value (`windowWrite_operand_idle`). -/
theorem busyHazardBothOrders : Obligations.BusyHazardBothOrders := by
  intro s f off v rest hinv hf hoff
  have hb := hinv.block.busy_of_inflight hf
  have hfault := (hinv.block.no_fault_of_busy hb).1
  have hfirst := step_withWrite_busy hb hfault hoff v (.complete :: rest)
  refine ⟨⟨_, _, hfirst, step_complete_idle (s := s.setBlock (s.block.faulted 4 (BitVec.ofNat 64 off) v) rest) rfl rest,
    rfl⟩, ?_⟩
  obtain ⟨hlt, h8⟩ := GuardedOffset.lt (c := s.cfg) hoff
  obtain ⟨y, hy, hlen, hval⟩ := completeTurn_value
    (s := { s with order := .access (.write (s.cfg.base + off) 8 v) :: rest }) hinv.block hf
  have hn := s.cfg.n_le
  have hsecond : step ((s.setBlock (s.block.completed y) rest).withWrite off v rest) =
      windowWrite off v (s.setBlock (s.block.completed y) rest) := step_withWrite hlt h8
  have hoperand : ∀ {x : Reg}, x.IsOperand s.cfg.n → windowWrite x.offset v (s.setBlock (s.block.completed y) rest) =
      .next (s.setBlock ((s.block.completed y).setOperand v x) rest) := fun hx =>
    windowWrite_operand_idle (s := s.setBlock (s.block.completed y) rest) rfl hx v
  obtain rfl | hoff := hoff
  · obtain ⟨u, hu⟩ := issue_next v (s.setBlock (s.block.completed y) rest)
    exact ⟨y, _, u, hy, rfl, hlen, hval, hsecond.trans hu, issue_r hu, fun _ => hu, fun h => by omega,
      fun i _ => ⟨fun h => by omega, fun h => by omega⟩⟩
  · obtain rfl | ⟨i, hi, rfl | rfl⟩ := hoff
    · exact ⟨y, _, _, hy, rfl, hlen, hval, hsecond.trans (hoperand .scalar), rfl, fun h => by omega, fun _ => rfl,
        fun i _ => ⟨fun h => by omega, fun h => by omega⟩⟩
    · refine ⟨y, _, _, hy, rfl, hlen, hval, hsecond.trans (hoperand (.a hi)), rfl, fun h => by omega,
        fun h => by omega, fun j _ => ⟨fun h => ?_, fun h => by omega⟩⟩
      obtain rfl : j = i := by omega
      rfl
    · refine ⟨y, _, _, hy, rfl, hlen, hval, hsecond.trans (hoperand (.b hi)), rfl, fun h => by omega,
        fun h => by omega, fun j _ => ⟨fun h => by omega, fun h => ?_⟩⟩
      obtain rfl : j = i := by omega
      rfl

end Sys2Proof.Machine
end

section
/-! ### The host agent (R59, R60, R97) -/

namespace Sys2Proof.Machine

/-! #### Its statements (R59) -/

/-- A taken branch to a label the program defines goes to its position (R59). -/
theorem jump_of_findLabel {l p : Nat} {s : State} (h : findLabelFrom s.host.program l 0 = some p) :
    jump l s = .next { s with host := { s.host with pos := p } } := by
  rw [jump, h]

/-- At `halt` and past the last statement the host's turn passes (R59, log 9). -/
theorem step_host_ended {s : State}
    (h : s.host.program[s.host.pos]? = some .halt ∨ s.host.program[s.host.pos]? = none) (rest : List Event) :
    step { s with order := .host :: rest } = .next { s with order := rest } := by
  obtain h | h := h
  · exact step_host h rest
  · show hostTurn { s with order := rest } = _
    rw [hostTurn, h]

/-- A branch to a label the program defines goes there when it is taken, and else on (R59). -/
theorem branch_eq {l p : Nat} {s : State} (hl : findLabelFrom s.host.program l 0 = some p) (taken : Prop)
    [Decidable taken] :
    (if taken then jump l s else .next (advance s)) =
      .next { s with host := { s.host with pos := if taken then p else s.host.pos + 1 } } := by
  split
  · exact jump_of_findLabel hl
  · rfl

theorem step_host_bnz {s : State} {t l p : Nat} {imm : Word} (hst : s.host.program[s.host.pos]? = some (.bnz t imm l))
    (hl : findLabelFrom s.host.program l 0 = some p) (rest : List Event) :
    step { s with order := .host :: rest } = .next { s with order := rest, host := { s.host with
      pos := if varGet s.host.vars t &&& imm.toNat ≠ 0 then p else s.host.pos + 1 } } :=
  (step_host hst rest).trans (branch_eq (s := { s with order := rest }) hl _)

theorem step_host_bz {s : State} {t l p : Nat} {imm : Word} (hst : s.host.program[s.host.pos]? = some (.bz t imm l))
    (hl : findLabelFrom s.host.program l 0 = some p) (rest : List Event) :
    step { s with order := .host :: rest } = .next { s with order := rest, host := { s.host with
      pos := if varGet s.host.vars t &&& imm.toNat = 0 then p else s.host.pos + 1 } } :=
  (step_host hst rest).trans (branch_eq (s := { s with order := rest }) hl _)

/-- The host's read puts the window's data into its variable, and into `lastRead` (R59, log 11). -/
theorem step_host_rd {s : State} {x : Reg} {t : Nat} (hst : s.host.program[s.host.pos]? = some (.rd x t))
    (hx : x.inMap = true) (rest : List Event) :
    step { s with order := .host :: rest } = .next { s with
      order := rest, lastRead := some (windowRead s.cfg s.block x.offset),
      host := ⟨s.host.program, s.host.pos + 1,
        varSet s.host.vars t (windowRead s.cfg s.block x.offset).toNat⟩ } := by
  rw [step_host hst, hostStmt, hostRead_inMap hx]
  rfl

/-- Settles O56: the host's turn runs the statement at its position (`step_host`), and each statement has its
equation. -/
theorem hostStatements : Obligations.HostStatements := by
  rintro s rest turn rfl
  refine ⟨fun x v hst hx => ?_, fun x t hst hx => step_host_rd hst hx rest, fun l hst => step_host hst rest,
    fun t imm l p hst hl => step_host_bnz hst hl rest, fun t imm l p hst hl => step_host_bz hst hl rest,
    fun h => step_host_ended h rest⟩
  obtain ⟨hlt, h8⟩ := offset_of_inMap hx
  rw [step_host hst, hostStmt, hostWrite_inMap hx]
  exact (step_withWrite (s := advance s) hlt h8).symm

/-! #### `lda` and `ldb` (R60) -/

/-- A run of host turns, by its first turn. -/
theorem run_host_succ {s t : State} {k : Nat} {rest : List Event} (horder : s.order = .host :: rest)
    (h : step { s with order := .host :: rest } = .next t) :
    Host.Core.run Sys2Proof.core (k + 1) s = Host.Core.run Sys2Proof.core k t :=
  run_succ k (by rw [← h, ← horder])

/-- An operand array of the block, as the host writes it: limb i is the register `x i`, `get` reads the array and
`put` replaces it. -/
structure OperandArray (x : Nat → Reg) (get : Block → List Word) (put : List Word → Block → Block) : Prop where
  inMap : ∀ i, i < 512 → (x i).inMap = true
  write : ∀ (s : State) (i : Nat) (v : Word), i < s.cfg.n → s.block.busy = false →
    windowWrite (x i).offset v s = .next { s with block := put ((get s.block).set i v) s.block }
  get_put : ∀ xs b, get (put xs b) = xs
  put_get : ∀ b, put (get b) b = b
  put_put : ∀ xs ys b, put xs (put ys b) = put xs b
  put_busy : ∀ xs b, (put xs b).busy = b.busy

theorem operandArray_a : OperandArray .a Block.a (fun xs b => { b with a := xs }) where
  inMap _ hi := decide_eq_true hi
  write _ _ v hi hb := windowWrite_operand_idle hb (.a hi) v
  get_put _ _ := rfl
  put_get _ := rfl
  put_put _ _ _ := rfl
  put_busy _ _ := rfl

theorem operandArray_b : OperandArray .b Block.b (fun xs b => { b with b := xs }) where
  inMap _ hi := decide_eq_true hi
  write _ _ v hi hb := windowWrite_operand_idle hb (.b hi) v
  get_put _ _ := rfl
  put_get _ := rfl
  put_put _ _ _ := rfl
  put_busy _ _ := rfl

section
variable {x : Nat → Reg} {get : Block → List Word} {put : List Word → Block → Block}

/-- s with the host gone on to position `pos`, block b, and the turns `rest` left. -/
def State.hostMoved (pos : Nat) (b : Block) (rest : List Event) (s : State) : State :=
  { s with order := rest, host := { s.host with pos := pos }, block := b }

/-- The host's turn at `wr X[i], v` sets limb i. -/
theorem OperandArray.step_write (hx : OperandArray x get put) {s : State} {i : Nat} {v : Word}
    (hi : i < s.cfg.n) (hb : s.block.busy = false) (hst : s.host.program[s.host.pos]? = some (.wr (x i) (.imm v)))
    (rest : List Event) :
    step { s with order := .host :: rest } =
      .next (s.hostMoved (s.host.pos + 1) (put ((get s.block).set i v) s.block) rest) := by
  rw [step_host hst, hostStmt, hostWrite_inMap (hx.inMap i (hi.trans_le s.cfg.n_le))]
  exact hx.write (advance { s with order := rest }) i v hi hb

/-- The host's turns over the writes of limbs i to N − 1 of v: limbs below i stay, those from i on become the limbs of
v. Each turn sets one limb, and v moves on by one limb with it. -/
theorem OperandArray.run_loadStmts (hx : OperandArray x get put) {s : State} {i v count : Nat} {rest : List Event}
    (hlen : (get s.block).length = s.cfg.n) (hcount : i + count = s.cfg.n) (hb : s.block.busy = false)
    (horder : s.order = List.replicate count .host ++ rest)
    (hprog : ∃ after, s.host.program.drop s.host.pos = loadStmts x v i count ++ after) :
    Host.Core.run Sys2Proof.core count s =
      .next (s.hostMoved (s.host.pos + count) (put ((get s.block).take i ++ pack v count) s.block) rest) := by
  induction count generalizing s i v with
  | zero =>
    obtain ⟨cfg, block, host, order, lastRead⟩ := s
    obtain rfl : order = rest := horder
    have htake : (get block).take i ++ pack v 0 = get block := by
      rw [pack_zero_length, List.append_nil]
      exact List.take_of_length_le (by dsimp only at hlen hcount; omega)
    rw [htake, hx.put_get]
    rfl
  | succ count ih =>
    obtain ⟨after, hprog⟩ := hprog
    have hst : s.host.program[s.host.pos]? = some (.wr (x i) (.imm (BitVec.ofNat 64 v))) := by
      rw [← Nat.add_zero s.host.pos, ← List.getElem?_drop, hprog]
      rfl
    have hi : i < s.cfg.n := by omega
    have hstep := hx.step_write hi hb hst (List.replicate count .host ++ rest)
    have htail : s.host.program.drop (s.host.pos + 1) = loadStmts x (v / 2 ^ 64) (i + 1) count ++ after := by
      rw [← List.drop_drop, hprog]
      rfl
    have htake : ((get s.block).set i (BitVec.ofNat 64 v)).take (i + 1) ++ pack (v / 2 ^ 64) count =
        (get s.block).take i ++ pack v (count + 1) := by
      rw [pack_succ, List.take_add_one, List.take_set_of_le (le_refl i), List.getElem?_set_self (hi.trans_eq hlen.symm),
        List.append_assoc]
      rfl
    have hrun := ih (s := s.hostMoved (s.host.pos + 1) (put ((get s.block).set i (BitVec.ofNat 64 v)) s.block)
      (List.replicate count .host ++ rest)) (i := i + 1) (by rw [State.hostMoved, hx.get_put, List.length_set, hlen])
      (show i + 1 + count = s.cfg.n by omega) ((hx.put_busy _ _).trans hb) rfl ⟨after, htail⟩
    rw [run_host_succ horder hstep, hrun]
    simp only [State.hostMoved, hx.get_put, hx.put_put, htake, Nat.add_right_comm, Nat.add_assoc]

/-- A load of all N limbs, at its place in the program. -/
theorem OperandArray.run_load (hx : OperandArray x get put) {s : State} {v : Nat} {before after : List Stmt}
    {rest : List Event} (hlen : (get s.block).length = s.cfg.n) (hb : s.block.busy = false)
    (hpos : s.host.pos = before.length) (horder : s.order = List.replicate s.cfg.n .host ++ rest)
    (hprog : s.host.program = before ++ loadStmts x v 0 s.cfg.n ++ after) :
    Host.Core.run Sys2Proof.core s.cfg.n s =
      .next (s.hostMoved (s.host.pos + s.cfg.n) (put (pack v s.cfg.n) s.block) rest) := by
  refine hx.run_loadStmts hlen (Nat.zero_add _) hb horder ⟨after, ?_⟩
  rw [hprog, hpos, List.append_assoc, List.drop_left]
end

/-- Settles O57: A and B are operand arrays, and the writes of a load set their limbs one by one
(`OperandArray.run_loadStmts`). -/
theorem ldaAndLdbLoadTheValue : Obligations.LdaAndLdbLoadTheValue := by
  intro s v before after rest hinv hb hpos horder
  exact ⟨operandArray_a.run_load hinv.block.a_length hb hpos horder,
    operandArray_b.run_load hinv.block.b_length hb hpos horder⟩

/-! #### `rdr` (R60) -/

/-- A run after a run. -/
theorem run_add {s u : State} {k : Nat} (h : Host.Core.run Sys2Proof.core k s = .next u) (m : Nat) :
    Host.Core.run Sys2Proof.core (k + m) s = Host.Core.run Sys2Proof.core m u := by
  induction k generalizing s with
  | zero => cases h; rw [Nat.zero_add]
  | succ k ih =>
    obtain ⟨t, ht, hu⟩ := run_succ_eq_next h
    rw [Nat.succ_add, run_succ _ ht, ih hu]

/-- s with its host at position `pos` with variables `vars`, `data` returned to the last read, and the turns `rest`
left: what host turns that write nothing leave. -/
def State.hostAt (pos : Nat) (vars : List (Nat × Nat)) (data : Option Word) (rest : List Event) (s : State) : State :=
  { s with host := ⟨s.host.program, pos, vars⟩, order := rest, lastRead := data }

/-- A limb of R reads at its register's offset (R32). -/
theorem windowRead_r {c : Config} {i : Nat} (hi : i < c.n) (b : Block) :
    windowRead c b (Reg.r i).offset = b.r.getD i 0 :=
  windowRead_offset (x := .r i) hi b

theorem length_readStmts (t0 i count : Nat) : (readStmts t0 i count).length = count := by
  induction count generalizing i with
  | zero => rfl
  | succ count ih => rw [readStmts, List.length_cons, ih]

/-- The host's turns over the reads of limbs i to N − 1 of R into t0 + i and up: each variable gets its limb, and those
below keep theirs, since no two are the same. -/
theorem run_readStmts {s : State} {t0 i count : Nat} {rest : List Event} (hcount : i + count = s.cfg.n)
    (hcanon : varsCanon s.host.vars = true) (horder : s.order = List.replicate count .host ++ rest)
    (hprog : ∃ after, s.host.program.drop s.host.pos = readStmts t0 i count ++ after)
    (hread : ∀ j, j < i → varGet s.host.vars (t0 + j) = (s.block.r.getD j 0).toNat) :
    ∃ vars data,
      Host.Core.run Sys2Proof.core count s = .next (s.hostAt (s.host.pos + count) vars data rest) ∧
      varsCanon vars = true ∧ ∀ j, j < s.cfg.n → varGet vars (t0 + j) = (s.block.r.getD j 0).toNat := by
  induction count generalizing s i with
  | zero =>
    refine ⟨s.host.vars, s.lastRead, ?_, hcanon, fun j hj => hread j (by omega)⟩
    obtain ⟨cfg, block, host, order, lastRead⟩ := s
    obtain rfl : order = rest := horder
    rfl
  | succ count ih =>
    obtain ⟨after, hprog⟩ := hprog
    have hst : s.host.program[s.host.pos]? = some (.rd (.r i) (t0 + i)) := by
      rw [← Nat.add_zero s.host.pos, ← List.getElem?_drop, hprog]
      rfl
    have hi : i < s.cfg.n := by omega
    have hstep := step_host_rd hst (decide_eq_true (hi.trans_le s.cfg.n_le)) (List.replicate count .host ++ rest)
    rw [windowRead_r hi] at hstep
    have htail : s.host.program.drop (s.host.pos + 1) = readStmts t0 (i + 1) count ++ after := by
      rw [← List.drop_drop, hprog]
      rfl
    obtain ⟨vars, data, hrun, hvars⟩ := ih (s := s.hostAt (s.host.pos + 1)
        (varSet s.host.vars (t0 + i) (s.block.r.getD i 0).toNat) (some (s.block.r.getD i 0))
        (List.replicate count .host ++ rest)) (i := i + 1)
      (show i + 1 + count = s.cfg.n by omega) (varSet_canonFrom _ hcanon (Nat.zero_le _)) rfl ⟨after, htail⟩
      (fun j hj => by
        refine (varGet_varSet (t0 + i) _ (t0 + j) hcanon).trans ?_
        split_ifs with h
        · obtain rfl : j = i := by omega
          rfl
        · exact hread j (by omega))
    refine ⟨vars, data, ?_, hvars⟩
    rw [run_host_succ horder hstep, Nat.add_comm count, ← Nat.add_assoc]
    exact hrun

/-- The host's sum over the variables of the limbs is the value (R7, R60). -/
theorem sumVars_eq_val {vars : List (Nat × Nat)} {t0 : Nat} {xs : List Word}
    (h : ∀ j, j < xs.length → varGet vars (t0 + j) = (xs.getD j 0).toNat) :
    sumVars vars ((List.range xs.length).map (t0 + ·)) = val xs := by
  induction xs generalizing t0 with
  | nil => rfl
  | cons x xs ih =>
    have htail : (List.range xs.length).map ((t0 + ·) ∘ Nat.succ) = (List.range xs.length).map (t0 + 1 + ·) :=
      List.map_congr_left fun j _ => (Nat.succ_add_eq_add_succ t0 j).symm
    have hsum := ih (t0 := t0 + 1) fun j hj => by
      rw [Nat.add_right_comm, Nat.add_assoc, h (j + 1) (Nat.succ_lt_succ hj), List.getD_cons_succ]
    rw [List.length_cons, List.range_succ_eq_map, List.map_cons, List.map_map, htail, sumVars, hsum,
      h 0 (Nat.succ_pos _), List.getD_cons_zero, val_cons]

/-- Settles O58: N turns read the limbs into their variables (`run_readStmts`), and one more takes their sum, which is
the value (`sumVars_eq_val`). -/
theorem rdrReadsTheValueOfR : Obligations.RdrReadsTheValueOfR := by
  intro s t t0 before after rest hinv hpos horder hprog
  have hdrop : s.host.program.drop s.host.pos =
      readStmts t0 0 s.cfg.n ++ (.sum t ((List.range s.cfg.n).map (t0 + ·)) :: after) := by
    rw [hprog, hpos, List.append_assoc, List.drop_left, rdrStmts, List.append_assoc]
    rfl
  rw [List.replicate_succ', List.append_assoc] at horder
  obtain ⟨vars, data, hrun, hcanon, hread⟩ := run_readStmts (Nat.zero_add _) hinv.vars horder ⟨_, hdrop⟩
    (fun j hj => absurd hj (Nat.not_lt_zero j))
  have hst : s.host.program[s.host.pos + s.cfg.n]? = some (.sum t ((List.range s.cfg.n).map (t0 + ·))) := by
    rw [← List.getElem?_drop, hdrop, List.getElem?_append_right (length_readStmts t0 0 s.cfg.n).le, length_readStmts,
      Nat.sub_self]
    rfl
  have hlen := hinv.block.r_length
  have hsum : sumVars vars ((List.range s.cfg.n).map (t0 + ·)) = val s.block.r := by
    rw [← hlen] at hread ⊢
    exact sumVars_eq_val hread
  have hstep := step_host (s := s.hostAt (s.host.pos + s.cfg.n) vars data rest) hst rest
  refine ⟨_, (run_add hrun 1).trans (run_succ 0 hstep), ?_, rfl, rfl, rfl⟩
  exact (varGet_varSet t _ t hcanon).trans ((if_pos rfl).trans hsum)

/-! #### `wait` (R60, R97, R102) -/

/-- The three statements of a `wait` stand at position p, and its branch goes back there. -/
structure HasWait (program : List Stmt) (p lw v : Nat) : Prop where
  label : program[p]? = some (.label lw)
  read : program[p + 1]? = some (.rd .status v)
  branch : program[p + 2]? = some (.bnz v 0x1#64 lw)
  target : findLabelFrom program lw 0 = some p

theorem hasWait_of_take {program : List Stmt} {p lw v : Nat} (h : (program.drop p).take 3 = waitStmts lw v)
    (htarget : findLabelFrom program lw 0 = some p) : HasWait program p lw v := by
  have hget : ∀ j, j < 3 → program[p + j]? = (waitStmts lw v)[j]? := fun j hj => by
    rw [← h, List.getElem?_take_of_lt hj, List.getElem?_drop]
  exact ⟨hget 0 (by decide), hget 1 (by decide), hget 2 (by decide), htarget⟩

/-- The host polls at p: it is at one of the three statements, at the branch with BUSY = 1 in its variable. -/
def InWait (p v pos : Nat) (vars : List (Nat × Nat)) : Prop :=
  pos = p ∨ pos = p + 1 ∨ pos = p + 2 ∧ varGet vars v &&& 1 ≠ 0

theorem windowRead_status (c : Config) (b : Block) : windowRead c b Reg.status.offset = statusWord b := rfl

section
variable {s : State} {p lw v : Nat} (hw : HasWait s.host.program p lw v)
include hw

/-- At the label the host goes on to the read. -/
theorem step_wait_label (hpos : s.host.pos = p) (rest : List Event) :
    step { s with order := .host :: rest } = .next (s.hostAt (p + 1) s.host.vars s.lastRead rest) := by
  rw [step_host (hpos.symm ▸ hw.label)]
  show Host.Outcome.next (s.hostAt (s.host.pos + 1) s.host.vars s.lastRead rest) = _
  rw [hpos]

/-- At the read the host takes STATUS into its variable. -/
theorem step_wait_read (hpos : s.host.pos = p + 1) (rest : List Event) :
    step { s with order := .host :: rest } = .next (s.hostAt (p + 2)
      (varSet s.host.vars v (statusWord s.block).toNat) (some (statusWord s.block)) rest) := by
  rw [step_host_rd (hpos.symm ▸ hw.read) rfl, windowRead_status, hpos]
  rfl

/-- At the branch the host goes back to the label while its variable has bit 0. -/
theorem step_wait_back (hpos : s.host.pos = p + 2) (hbit : varGet s.host.vars v &&& 1 ≠ 0) (rest : List Event) :
    step { s with order := .host :: rest } = .next (s.hostAt p s.host.vars s.lastRead rest) := by
  rw [step_host_bnz (hpos.symm ▸ hw.branch) hw.target, show (0x1#64).toNat = 1 from rfl, if_pos hbit]
  rfl

/-- At the branch the host leaves the loop when its variable has bit 0 clear. -/
theorem step_wait_leave (hpos : s.host.pos = p + 2) (hbit : varGet s.host.vars v &&& 1 = 0) (rest : List Event) :
    step { s with order := .host :: rest } = .next (s.hostAt (p + 3) s.host.vars s.lastRead rest) := by
  rw [step_host_bnz (hpos.symm ▸ hw.branch) hw.target, show (0x1#64).toNat = 1 from rfl,
    if_neg (not_not.mpr hbit), hpos]
  rfl

/-- A turn of a polling host while BUSY = 1: it keeps polling, and writes nothing (R97). -/
theorem step_polls (hstatus : statusWord s.block = 0x1) (hcanon : varsCanon s.host.vars = true)
    (hin : InWait p v s.host.pos s.host.vars) (rest : List Event) :
    ∃ pos vars data, step { s with order := .host :: rest } = .next (s.hostAt pos vars data rest) ∧
      InWait p v pos vars ∧ varsCanon vars = true := by
  obtain hpos | hpos | ⟨hpos, hbusy⟩ := hin
  · exact ⟨_, _, _, step_wait_label hw hpos rest, .inr (.inl rfl), hcanon⟩
  · refine ⟨_, _, _, step_wait_read hw hpos rest, .inr (.inr ⟨rfl, ?_⟩), varSet_canonFrom _ hcanon (Nat.zero_le _)⟩
    rw [varGet_varSet _ _ _ hcanon, if_pos rfl, hstatus]
    decide
  · exact ⟨_, _, _, step_wait_back hw hpos hbusy rest, .inl rfl, hcanon⟩

/-- The turns of a polling host while BUSY = 1. -/
theorem run_polls (hstatus : statusWord s.block = 0x1) (hcanon : varsCanon s.host.vars = true)
    (hin : InWait p v s.host.pos s.host.vars) {k : Nat} {rest : List Event}
    (horder : s.order = List.replicate k .host ++ rest) :
    ∃ pos vars data, Host.Core.run Sys2Proof.core k s = .next (s.hostAt pos vars data rest) ∧
      InWait p v pos vars ∧ varsCanon vars = true := by
  induction k generalizing s with
  | zero =>
    refine ⟨s.host.pos, s.host.vars, s.lastRead, ?_, hin, hcanon⟩
    obtain ⟨cfg, block, host, order, lastRead⟩ := s
    obtain rfl : order = rest := horder
    rfl
  | succ k ih =>
    obtain ⟨pos, vars, data, hstep, hin, hcanon⟩ := step_polls hw hstatus hcanon hin (List.replicate k .host ++ rest)
    obtain ⟨pos', vars', data', hrun, hin'⟩ := ih (s := s.hostAt pos vars data (List.replicate k .host ++ rest)) hw
      hstatus hcanon hin rfl
    exact ⟨pos', vars', data', (run_host_succ horder hstep).trans hrun, hin'⟩

/-- With DONE in STATUS, the host at the read leaves the loop in two turns: it reads 0x2, whose bit 0 is clear. -/
theorem run_leaves_from_read (hstatus : statusWord s.block = 0x2) (hcanon : varsCanon s.host.vars = true)
    (hpos : s.host.pos = p + 1) {rest : List Event} (horder : s.order = .host :: .host :: rest) :
    ∃ vars data, Host.Core.run Sys2Proof.core 2 s = .next (s.hostAt (p + 3) vars data rest) ∧ varGet vars v = 0x2 := by
  have hvar : varGet (varSet s.host.vars v (statusWord s.block).toNat) v = 0x2 := by
    rw [varGet_varSet _ _ _ hcanon, if_pos rfl, hstatus]
    rfl
  have hread := step_wait_read hw hpos (.host :: rest)
  have hleave := step_wait_leave (s := s.hostAt (p + 2) (varSet s.host.vars v (statusWord s.block).toNat)
    (some (statusWord s.block)) (.host :: rest)) hw rfl (congrArg (· &&& 1) hvar) rest
  exact ⟨_, _, (run_host_succ horder hread).trans (run_host_succ rfl hleave), hvar⟩

/-- From the label it takes one turn more. -/
theorem run_leaves_from_label (hstatus : statusWord s.block = 0x2) (hcanon : varsCanon s.host.vars = true)
    (hpos : s.host.pos = p) {rest : List Event} (horder : s.order = .host :: .host :: .host :: rest) :
    ∃ vars data, Host.Core.run Sys2Proof.core 3 s = .next (s.hostAt (p + 3) vars data rest) ∧ varGet vars v = 0x2 := by
  have hlabel := step_wait_label hw hpos (.host :: .host :: rest)
  obtain ⟨vars, data, hrun, hvar⟩ := run_leaves_from_read
    (s := s.hostAt (p + 1) s.host.vars s.lastRead (.host :: .host :: rest)) hw hstatus hcanon rfl rfl
  exact ⟨vars, data, (run_host_succ horder hlabel).trans hrun, hvar⟩

/-- From wherever it polls, the host leaves the loop within four turns: the longest way is from the branch with an old
STATUS in the variable, back over the label. -/
theorem run_leaves (hstatus : statusWord s.block = 0x2) (hcanon : varsCanon s.host.vars = true)
    (hin : InWait p v s.host.pos s.host.vars) {rest : List Event}
    (horder : s.order = .host :: .host :: .host :: .host :: rest) :
    ∃ m vars data rest', m ≤ 4 ∧ Host.Core.run Sys2Proof.core m s = .next (s.hostAt (p + 3) vars data rest') ∧
      varGet vars v = 0x2 := by
  obtain hpos | hpos | ⟨hpos, hbusy⟩ := hin
  · obtain ⟨vars, data, h⟩ := run_leaves_from_label hw hstatus hcanon hpos horder
    exact ⟨3, vars, data, _, by decide, h⟩
  · obtain ⟨vars, data, h⟩ := run_leaves_from_read hw hstatus hcanon hpos horder
    exact ⟨2, vars, data, _, by decide, h⟩
  · have hback := step_wait_back hw hpos hbusy (.host :: .host :: .host :: rest)
    obtain ⟨vars, data, hrun, hvar⟩ := run_leaves_from_label
      (s := s.hostAt p s.host.vars s.lastRead (.host :: .host :: .host :: rest)) hw hstatus hcanon rfl rfl
    exact ⟨4, vars, data, _, le_refl _, (run_host_succ horder hback).trans hrun, hvar⟩
end

/-- STATUS while a command is in flight (R15). -/
theorem Block.IsBusy.statusWord_eq {b : Block} (h : b.IsBusy) : statusWord b = 0x1 := by
  obtain ⟨hb, hd, hf, hc⟩ := h
  rw [statusWord, hb, hd, hf, hc]
  rfl

/-- STATUS after a completion (R15). -/
theorem Block.IsDone.statusWord_eq {b : Block} (h : b.IsDone) : statusWord b = 0x2 := by
  obtain ⟨hb, hd, hf, hc⟩ := h
  rw [statusWord, hb, hd, hf, hc]
  rfl

/-- Settles O59: the host polls without a write while BUSY = 1 (`run_polls`), the datapath's turn completes the command
(`completeTurn_value`), and the host leaves the loop (`run_leaves`). -/
theorem waitEndsAfterTheCompletion : Obligations.WaitEndsAfterTheCompletion := by
  intro s f k lw v rest hinv hf horder hwait htarget
  have hw := hasWait_of_take hwait htarget
  have hbusy := hinv.block.busy_of_inflight hf
  have hform := hinv.block.status_form.isBusy hbusy
  obtain ⟨pos, vars, data, hpoll, hin, hcanon⟩ := run_polls hw hform.statusWord_eq hinv.vars (.inl rfl) horder
  obtain ⟨y, hy, hlen, hval⟩ := completeTurn_value
    (s := s.hostAt pos vars data (List.replicate 4 .host ++ rest)) hinv.block hf
  obtain ⟨m, vars', data', rest', hm, hleave, hvar⟩ := run_leaves
    (s := complete y (s.hostAt pos vars data (List.replicate 4 .host ++ rest))) hw
    (Block.IsDone.statusWord_eq ⟨rfl, rfl, hinv.block.no_fault_of_busy hbusy⟩) hcanon hin rfl
  exact ⟨m, _, hm, (run_add ((run_add hpoll 1).trans (run_succ 0 hy)) m).trans hleave, rfl, hvar, rfl, hlen, hval⟩

end Sys2Proof.Machine
end

section
/-! ### Assembled programs (R60, log 18) -/

namespace Sys2Proof.Machine

/-- An assembled program is the expansion of its source. -/
theorem expandLines_of_assembleProgram {n : Nat} {lines : List Line} {p : List Stmt}
    (h : assembleProgram n lines = some p) :
    ∃ k, expandLines n lines (Names.fresh lines) = some (p, k) := by
  unfold assembleProgram at h
  split at h
  · cases h
  next r hr =>
    split at h <;> cases h
    exact ⟨r.2, hr⟩

/-- The expansion of a source splits at each of its lines. -/
theorem expandLines_split {n : Nat} {before after : List Line} {line : Line} {k k'' : Names} {p : List Stmt}
    (h : expandLines n (before ++ line :: after) k = some (p, k'')) :
    ∃ pre k₁ sts k₂ post, expandLines n before k = some (pre, k₁) ∧ expandLine n line k₁ = some (sts, k₂) ∧
      expandLines n after k₂ = some (post, k'') ∧ p = pre ++ (sts ++ post) := by
  rw [expandLines_append, Option.bind_eq_some_iff] at h
  obtain ⟨⟨pre, k₁⟩, hpre, h⟩ := h
  obtain ⟨⟨p', k₃⟩, hrest, h⟩ := Option.map_eq_some_iff.mp h
  cases h
  unfold expandLines at hrest
  split at hrest
  · cases hrest
  next sts k₂ hline =>
    obtain ⟨⟨post, k₄⟩, hpost, h⟩ := Option.map_eq_some_iff.mp hrest
    cases h
    exact ⟨pre, k₁, sts, k₂, post, hpre, hline, hpost, rfl⟩

/-- A name is fresh that is the next free one between two expansions: names the source mentions lie below `lo`, and
what the expansions make up lies below x before it and above x after it. -/
theorem not_mem_names_of_between {names : Stmt → List Nat} {pre lead post : List Stmt} {bs as : List Nat}
    {lo x hi : Nat} (hpre : NamesWithin names pre bs lo x) (hlead : ∀ st ∈ lead, names st = [])
    (hpost : NamesWithin names post as (x + 1) hi) (hmentioned : ∀ y ∈ bs ++ as, y < lo) :
    ∀ st ∈ pre ++ lead ++ post, x ∉ names st := by
  obtain ⟨hlo, hpre⟩ := hpre
  obtain ⟨-, hpost⟩ := hpost
  intro st hst hx
  rw [List.mem_append, List.mem_append] at hst
  obtain (hst | hst) | hst := hst
  · obtain h | h := hpre st hst x hx
    · have := hmentioned x (List.mem_append_left _ h)
      omega
    · omega
  · rw [hlead st hst] at hx
    cases hx
  · obtain h | h := hpost st hst x hx
    · have := hmentioned x (List.mem_append_right _ h)
      omega
    · omega

/-- Names mentioned in the lines around one lie below the free names (log 18). -/
theorem lt_above_flatMap (names : Line → List Nat) (before after : List Line) (line : Line) :
    ∀ y ∈ before.flatMap names ++ after.flatMap names, y < above ((before ++ line :: after).flatMap names) := by
  intro y hy
  refine lt_above ?_
  rw [List.flatMap_append, List.flatMap_cons]
  obtain h | h := List.mem_append.mp hy
  · exact List.mem_append_left _ h
  · exact List.mem_append_right _ (List.mem_append_right _ h)

/-- A line whose expansion ends in a `wait` with the next free label, and with the variable the source names or the next
free one, has a fresh wait. -/
theorem hasFreshWait_of_expandLine {n : Nat} {before after : List Line} {line : Line} {named : Option Nat}
    {lead p : List Stmt} (hp : assembleProgram n (before ++ line :: after) = some p)
    (hline : ∀ k, expandLine n line k = some (lead ++ waitStmts k.label (k.waitVar named), k.afterWait named))
    (hlead : ∀ st ∈ lead, st.labels = [] ∧ st.vars = []) :
    HasFreshWait n before line after named lead p := by
  obtain ⟨k'', hexpand⟩ := expandLines_of_assembleProgram hp
  obtain ⟨pre, k, sts, k', post, hpre, hsts, hpost, rfl⟩ := expandLines_split hexpand
  obtain ⟨rfl, rfl⟩ := Prod.mk.inj (Option.some.inj ((hline k).symm.trans hsts))
  obtain ⟨hprelabels, hprevars⟩ := expandLines_names hpre
  obtain ⟨hpostlabels, hpostvars⟩ := expandLines_names hpost
  have hlabel := not_mem_names_of_between hprelabels (fun st hst => (hlead st hst).1) hpostlabels
    (lt_above_flatMap Line.labels before after line)
  have hfind : findLabelFrom (pre ++ lead ++ waitStmts k.label (k.waitVar named) ++ post) k.label 0 =
      some (pre.length + lead.length) := by
    have hfirst := findLabelFrom_append (pre := pre ++ lead) (rest := [.rd .status (k.waitVar named),
      .bnz (k.waitVar named) 0x1#64 k.label] ++ post) (fun st hst => hlabel st (List.mem_append_left _ hst)) 0
    rw [Nat.zero_add, List.length_append] at hfirst
    rw [List.append_assoc (pre ++ lead)]
    exact hfirst
  have hassoc : pre ++ (lead ++ waitStmts k.label (k.waitVar named) ++ post) =
      pre ++ lead ++ waitStmts k.label (k.waitVar named) ++ post := by simp only [List.append_assoc]
  refine ⟨pre, post, k, _, k'', k.label, k.waitVar named, hpre, hsts, hpost, hassoc, hassoc ▸ hfind, hlabel, ?_, ?_⟩
  · rintro x rfl
    rfl
  · rintro rfl
    exact not_mem_names_of_between hprevars (fun st hst => (hlead st hst).2) hpostvars
      (lt_above_flatMap Line.vars before after line)

/-- Settles O60: a `wait` and a `run` expand to the `wait` with the next free names, a `run` after its command's
statement, which mentions no name (`stmt?_names`, `hasFreshWait_of_expandLine`). -/
theorem assembledWaitsAreFresh : Obligations.AssembledWaitsAreFresh := by
  intro n before after named c p
  refine ⟨fun hp => hasFreshWait_of_expandLine hp (fun _ => rfl) (fun _ h => nomatch h), fun hp => ?_⟩
  obtain ⟨_, hexpand⟩ := expandLines_of_assembleProgram hp
  obtain ⟨_, k, _, _, _, -, hrun, -⟩ := expandLines_split hexpand
  cases hst : c.stmt? with
  | none => simp [expandLine, runStmts, hst] at hrun
  | some st =>
    refine ⟨st, rfl, hasFreshWait_of_expandLine hp (fun k => ?_) fun st' h => ?_⟩
    · rw [expandLine, runStmts, hst]
      rfl
    · rw [List.mem_singleton.mp h]
      exact stmt?_names hst

end Sys2Proof.Machine
end
